-- ==== Sys2Proof/Word.lean ====
section
/-! DEFINITION. The word types of the CHIP-8 CORE (spec/00_scope.md R7, R9, R10): bytes, 16-bit words, 12-bit addresses, register names. -/

namespace Sys2Proof

/-- An 8-bit value: a general register, a timer, a memory byte (R7 `VWIDTH`, `TWIDTH`). -/
abbrev Byte := BitVec 8

/-- A 16-bit value: I, PC, a stack slot, an instruction word (R7 `IWIDTH`, `PCWIDTH`, `STACK_ENTRY_WIDTH`, `ILEN`). -/
abbrev Word := BitVec 16

/-- The 12-bit address field `nnn` (R81). -/
abbrev Addr12 := BitVec 12

/-- The name of a general register, 0..15 (R20, R82). -/
abbrev RegIx := Fin 16

/-- `V0`, the register `Bnnn` adds (R114). -/
abbrev RegIx.V0 : RegIx := 0

/-- `VF`, the flag register (R22). -/
abbrev RegIx.VF : RegIx := 15

end Sys2Proof
end

