-- ==== Sys2Proof/Syntax.lean ====
section
/-! DEFINITION. The instructions: one constructor per row of spec/opcode_table.json (spec/30_encoding.md R90). -/

namespace Sys2Proof

/-- The 35 instructions (R90). Register operands are names, immediates are the fields of R81. The nibble N of
`5xyN` and `9xyN` is not examined by the decoder (R88), so it is no operand. -/
inductive Instr where
  /-- `00E0` CLS -/
  | cls
  /-- `00EE` RET -/
  | ret
  /-- `0nnn` SYS nnn (nnn other than 0x0E0 and 0x0EE, R86) -/
  | sys (nnn : Addr12)
  /-- `1nnn` JP nnn -/
  | jp (nnn : Addr12)
  /-- `2nnn` CALL nnn -/
  | call (nnn : Addr12)
  /-- `3xkk` SE Vx, kk -/
  | seImm (x : RegIx) (kk : Byte)
  /-- `4xkk` SNE Vx, kk -/
  | sneImm (x : RegIx) (kk : Byte)
  /-- `5xyN` SE Vx, Vy -/
  | seReg (x y : RegIx)
  /-- `6xkk` LD Vx, kk -/
  | ldImm (x : RegIx) (kk : Byte)
  /-- `7xkk` ADD Vx, kk -/
  | addImm (x : RegIx) (kk : Byte)
  /-- `8xy0` LD Vx, Vy -/
  | ldReg (x y : RegIx)
  /-- `8xy1` OR Vx, Vy -/
  | orReg (x y : RegIx)
  /-- `8xy2` AND Vx, Vy -/
  | andReg (x y : RegIx)
  /-- `8xy3` XOR Vx, Vy -/
  | xorReg (x y : RegIx)
  /-- `8xy4` ADD Vx, Vy -/
  | addReg (x y : RegIx)
  /-- `8xy5` SUB Vx, Vy -/
  | subReg (x y : RegIx)
  /-- `8xy6` SHR Vx, Vy -/
  | shrReg (x y : RegIx)
  /-- `8xy7` SUBN Vx, Vy -/
  | subnReg (x y : RegIx)
  /-- `8xyE` SHL Vx, Vy -/
  | shlReg (x y : RegIx)
  /-- `9xyN` SNE Vx, Vy -/
  | sneReg (x y : RegIx)
  /-- `Annn` LD I, nnn -/
  | ldI (nnn : Addr12)
  /-- `Bnnn` JP V0, nnn -/
  | jpV0 (nnn : Addr12)
  /-- `Cxkk` RND Vx, kk -/
  | rnd (x : RegIx) (kk : Byte)
  /-- `Dxyn` DRW Vx, Vy, n -/
  | drw (x y : RegIx) (n : BitVec 4)
  /-- `Ex9E` SKP Vx -/
  | skp (x : RegIx)
  /-- `ExA1` SKNP Vx -/
  | sknp (x : RegIx)
  /-- `Fx07` LD Vx, DT -/
  | ldVxDT (x : RegIx)
  /-- `Fx0A` LD Vx, K -/
  | ldVxK (x : RegIx)
  /-- `Fx15` LD DT, Vx -/
  | ldDTVx (x : RegIx)
  /-- `Fx18` LD ST, Vx -/
  | ldSTVx (x : RegIx)
  /-- `Fx1E` ADD I, Vx -/
  | addI (x : RegIx)
  /-- `Fx29` LD F, Vx -/
  | ldF (x : RegIx)
  /-- `Fx33` LD B, Vx -/
  | ldB (x : RegIx)
  /-- `Fx55` LD [I], Vx -/
  | ldMemStore (x : RegIx)
  /-- `Fx65` LD Vx, [I] -/
  | ldMemLoad (x : RegIx)
deriving DecidableEq, Repr

end Sys2Proof
end

