-- ==== Sys2Proof/Config.lean ====
section
/-! DEFINITION. What is fixed for the machine (spec/00_scope.md R7), and the free values the spec leaves to the environment: constants with no body, so that no proof can see them. -/

namespace Sys2Proof.Config

/-- `MEM_SIZE`: addresses 0x000..0xFFF exist (R7, R50). -/
def memSize : Nat := 0x1000

/-- `FONT_SIZE`: 16 sprites of 5 bytes, at address 0 (R7, R58). -/
def fontSize : Nat := 80

/-- `PROGRAM_BASE`: where the image is loaded (R7, R69). -/
def programBase : Nat := 0x200

/-- The longest image `construct` accepts (R69). -/
def maxImage : Nat := 3584

/-- The byte `random_byte()` gives at the n-th draw (R163, R255): any value, independent of every other.
DESIGN CHOICE (log 12, safe): an opaque function of the draw counter. -/
opaque randomByte : Nat → Byte

/-- The answer of a key poll with a key value above 15, at the n-th draw (R135, R136, R255): any Boolean.
DESIGN CHOICE (log 12, safe). -/
opaque pollAbove15 : Nat → Bool

/-- The value `Fx29` gives I for a digit above 15, at the n-th draw (R182, R255): any 16-bit value.
DESIGN CHOICE (log 12, safe). -/
opaque fontAddressAbove15 : Nat → Word

/-- How many DT decrement steps fall in the environment's n-th turn (R240, R241): any number.
DESIGN CHOICE (log 13, safe). -/
opaque dtTicks : Nat → Nat

/-- How many ST decrement steps fall in the environment's n-th turn (R240, R241): any number.
DESIGN CHOICE (log 13, safe). -/
opaque stTicks : Nat → Nat

/-- Which keys are held after the environment's n-th turn (R251, R256): any set, bit k for key k.
DESIGN CHOICE (log 13, safe). -/
opaque keysHeld : Nat → BitVec 16

/-- The key press the adapter reports in the environment's n-th turn, if any (R223, R257): none, or any key 0..15.
DESIGN CHOICE (log 13, safe). -/
opaque keyPress : Nat → Option (BitVec 4)

end Sys2Proof.Config

namespace Sys2Proof

/-- What the environment does between two interpreter steps, or in one turn of a key wait (R66, R222, R240, R256, R257). -/
structure EnvTurn where
  /-- decrement steps of the delay timer -/
  dtTicks : Nat
  /-- decrement steps of the sound timer -/
  stTicks : Nat
  /-- the keys held afterwards, bit k for key k -/
  keys : BitVec 16
  /-- the key press reported to a pending `wait_for_input()`, if any -/
  keyPress : Option (BitVec 4)
deriving DecidableEq, Repr

/-- The environment's n-th turn: every part of it a free value. -/
def Config.envTurn (n : Nat) : EnvTurn :=
  { dtTicks := Config.dtTicks n, stTicks := Config.stTicks n, keys := Config.keysHeld n, keyPress := Config.keyPress n }

end Sys2Proof
end

