-- ==== Sys2Proof/Machine/Font.lean ====
section
/-! DEFINITION. What a byte of memory that is not listed reads as (spec/20_memory.md R57, R58): the default font at
0x000..0x04F, and zero elsewhere. -/

namespace Sys2Proof.Machine

/-- The standard CHIP-8 font, the spec's default for the parameter `FONT` (R58, R8): sprites 0 to 7.
PRESUMED (log 8, unsafe): the spec has the bytes from general knowledge (93_implementation_defined.md G1). -/
def fontLow : List Byte :=
  [0xF0, 0x90, 0x90, 0x90, 0xF0, 0x20, 0x60, 0x20, 0x20, 0x70, 0xF0, 0x10, 0xF0, 0x80, 0xF0, 0xF0, 0x10, 0xF0, 0x10, 0xF0] ++
  [0x90, 0x90, 0xF0, 0x10, 0x10, 0xF0, 0x80, 0xF0, 0x10, 0xF0, 0xF0, 0x80, 0xF0, 0x90, 0xF0, 0xF0, 0x10, 0x20, 0x40, 0x40]

/-- The standard CHIP-8 font, sprites 8 to F (R58). -/
def fontHigh : List Byte :=
  [0xF0, 0x90, 0xF0, 0x90, 0xF0, 0xF0, 0x90, 0xF0, 0x10, 0xF0, 0xF0, 0x90, 0xF0, 0x90, 0x90, 0xE0, 0x90, 0xE0, 0x90, 0xE0] ++
  [0xF0, 0x80, 0x80, 0x80, 0xF0, 0xE0, 0x90, 0x90, 0x90, 0xE0, 0xF0, 0x80, 0xF0, 0x80, 0xF0, 0xF0, 0x80, 0xF0, 0x80, 0x80]

/-- The 80 bytes of the default font, digit 0 first (R58, R59). -/
def defaultFont : List Byte := fontLow ++ fontHigh

/-- What an unlisted address reads as: the default font byte in 0x000..0x04F (PRESUMED, log 8), zero elsewhere
(DESIGN CHOICE, log 7, unsafe: the spec leaves those bytes to the parameter `mem_fill`). -/
def Memory.background (a : Nat) : Byte := defaultFont.getD a 0

end Sys2Proof.Machine
end

