-- ==== Sys2Proof/Machine/State.lean ====
section
/-! DEFINITION. The state of the machine (spec/10_state.md), the adapter's state it can observe (spec/60_exceptions.md
R251), the reasons a step stops, and the reset state (R37). -/

namespace Sys2Proof.Machine

/-- The memory buffer (R50): the cells that differ from what an unlisted address reads as, in rising order. -/
abbrev Memory := List Host.Cell

/-- The canonical form: addresses strictly rising and below 4096 (R50), no cell equal to the background. -/
abbrev Memory.wf (m : Memory) : Prop :=
  m.Pairwise (fun c d => c.1 < d.1) ∧ ∀ c ∈ m, c.1 < Config.memSize ∧ c.2 ≠ Memory.background c.1

/-- The two stack faults (R34, R234). -/
inductive StackFaultKind where
  /-- CALL with the stack full -/
  | overflow
  /-- RET with the stack empty -/
  | underflow
deriving DecidableEq, Repr

/-- The kind of a fault with its extra field (R34): these three are the only faults (R235). -/
inductive FaultKind where
  /-- the fetched word is no instruction (R232) -/
  | decodeFault
  /-- push on a full stack or pop of an empty one (R234) -/
  | stackFault (which : StackFaultKind)
  /-- an access above 0xFFF; `addr` is the lowest out-of-range address, an unbounded integer (R233, R55) -/
  | boundsFault (addr : Nat)
deriving DecidableEq, Repr

/-- The fault record (R34). -/
structure FaultRecord where
  /-- kind, with overflow or underflow, or the address -/
  kind : FaultKind
  /-- `pc0` of the faulting instruction -/
  pc : Word
  /-- the instruction word; absent for a fetch that itself faulted -/
  raw : Option Word
deriving DecidableEq, Repr

/-- The run state (R33). -/
inductive RunState where
  /-- ready to fetch -/
  | running
  /-- an `Fx0A` at `pc0` is waiting for a key press for register `x` -/
  | waitKey (x : RegIx) (pc0 : Word)
  /-- a fault ended a step; absorbing -/
  | halted (record : FaultRecord)
  /-- the host stopped the machine; absorbing -/
  | stopped
deriving DecidableEq, Repr

/-- The framebuffer FB of 64 x 32 one-bit pixels (R251): row r is the 64 pixels FB[0][r]..FB[63][r], column c at bit c. -/
abbrev Framebuffer := Vector (BitVec 64) 32

/-- A request the interpreter sends to the adapter, with its payload (R250). -/
inductive Request where
  | clearScreen
  | drawSprite (b : Byte) (x : Byte) (y : BitVec 9)
  | checkCollision (b : Byte) (x : Byte) (y : BitVec 9)
  | isKeyPressed (k : BitVec 4)
  | waitForInput
  | playTone (d : Byte)
deriving DecidableEq, Repr

/-- The adapter: its own state (R251), and the requests sent to it, oldest first (R250). The tone generator has no state
the spec describes: only the `playTone` requests are observable (DEDUCED, log 17, safe). -/
structure Adapter where
  fb : Framebuffer
  /-- the keys held, bit k for key k (R256) -/
  keys : BitVec 16
  sent : List Request
deriving DecidableEq, Repr

/-- Which transaction the host makes next (R250, R259): DESIGN CHOICE (log 16, safe). -/
inductive HostRequest where
  | step
  | stop
deriving DecidableEq, Repr

/-- The machine (10_state.md), with the adapter and the host's pending request. -/
structure State where
  /-- the general registers V0..VF (R20) -/
  V : Vector Byte 16
  /-- the index register (R24) -/
  I : Word
  /-- the program counter (R25) -/
  PC : Word
  /-- the stack depth, 0..16 (R27) -/
  SP : Fin 17
  /-- the return-address slots (R27) -/
  STACK : Vector Word 16
  /-- the delay timer (R31) -/
  DT : Byte
  /-- the sound timer (R31) -/
  ST : Byte
  /-- the memory buffer (R50) -/
  MEM : Memory
  /-- the run state, with the fault record in it (R33, R34) -/
  run : RunState
  /-- the construction parameter `sys_jump` (R8, R111); no step writes it -/
  sysJump : Bool
  /-- the display/input/audio adapter (R251) -/
  adapter : Adapter
  /-- the host's next transaction (R259) -/
  host : HostRequest
  /-- MODEL'S OWN: free values drawn so far (R255; log 12) -/
  draws : Nat
  /-- MODEL'S OWN: environment turns taken so far (R241; log 13) -/
  turn : Nat
deriving DecidableEq, Repr

/-- Why a step answers that the machine stops. -/
inductive Fault where
  /-- A step request in HALTED, refused with the same fault record (R239). Raised by `step` alone. Safe: the spec says it. -/
  | halted (record : FaultRecord)
deriving DecidableEq, Repr

/-- Why a step request has no meaning. -/
inductive Refusal where
  /-- The instruction has no meaning in the model yet. Raised by a refused arm of `exec`; none is left. Safe. -/
  | notModelled (mnemonic : String)
  /-- A step request in STOPPED, which is absorbing (R33, R260). Raised by `step` alone. Safe (log 2). -/
  | stopped
deriving DecidableEq, Repr

/-- What a step or an instruction answers. -/
abbrev Result := Host.Outcome State Fault Refusal

/-- The machine right after construction with the default parameters and an empty image (R37, R270). PC, SP, DT, ST and
the run state are the spec's values; V, I, STACK, the framebuffer and the keyboard are DESIGN CHOICE values for what the
spec leaves to parameters (logs 3, 4, 5, 10, 11), and sysJump is the spec's default (log 9). -/
def State.reset : State :=
  { V := Vector.replicate 16 0
    I := 0
    PC := 0x200
    SP := 0
    STACK := Vector.replicate 16 0
    DT := 0
    ST := 0
    MEM := []
    run := .running
    sysJump := false
    adapter := { fb := Vector.replicate 32 0, keys := 0, sent := [] }
    host := .step
    draws := 0
    turn := 0 }

end Sys2Proof.Machine
end

