-- ==== Sys2Proof/Machine/Flags.lean ====
section
/-! DEFINITION. The ALU's results and the flags VF takes (spec/10_state.md R23, spec/42_alu.md R150 to R162): exact
unsigned arithmetic, then reduced modulo 256. -/

namespace Sys2Proof.Machine

/-- A flag value is 0 or 1 (R23). -/
def flag (b : Bool) : Byte := if b then 1 else 0

/-- `s mod 256` (R150). -/
def mod256 (n : Nat) : Byte := BitVec.ofNat 8 n

/-- `(a + b) mod 256` (R152, R158). -/
def aluSum (a b : Byte) : Byte := mod256 (a.toNat + b.toNat)

/-- The carry of `8xy4`: 1 if the sum is at least 256 (R158). -/
def carryFlag (a b : Byte) : Byte := flag (decide (256 ≤ a.toNat + b.toNat))

/-- `(a + 256 - b) mod 256` (R159, R161). -/
def aluDiff (a b : Byte) : Byte := mod256 (a.toNat + 256 - b.toNat)

/-- The no-borrow flag of `8xy5` and `8xy7`: 1 exactly when the minuend is strictly greater (R150, R159, R161). -/
def noBorrowFlag (a b : Byte) : Byte := flag (decide (a.toNat > b.toNat))

/-- `b >> 1` (R160). -/
def aluShr (b : Byte) : Byte := b >>> 1

/-- The bit `8xy6` shifts out: bit 0 of the source (R160). -/
def shrFlag (b : Byte) : Byte := b &&& 1

/-- `(b << 1) mod 256` (R162). -/
def aluShl (b : Byte) : Byte := b <<< 1

/-- The bit `8xyE` shifts out: bit 7 of the source (R162). -/
def shlFlag (b : Byte) : Byte := (b >>> 7) &&& 1

end Sys2Proof.Machine
end

