-- ==== Sys2Proof/Machine/Operands.lean ====
section
/-! DEFINITION. The operand forms (spec/00_scope.md R11, spec/30_encoding.md R83, spec/20_memory.md R54, R55): general
registers, the address field, and the checked addresses at offsets from I. -/

namespace Sys2Proof.Machine

/-- `V[x]` (R20). -/
def State.reg (s : State) (x : RegIx) : Byte := s.V.get x

/-- `V[x] <- v` (R20). None of the sixteen is hardwired. -/
def State.setReg (s : State) (x : RegIx) (v : Byte) : State := { s with V := s.V.set x.val v x.isLt }

/-- `zext_16(nnn)` (R83). -/
def zext16 (nnn : Addr12) : Word := nnn.zeroExtend 16

/-- `CheckAddr(addr)` (R54): the out-of-range address, if it is one. Nothing wraps (R55). -/
def checkAddr (addr : Nat) : Option Nat := if addr > 0xFFF then some addr else none

/-- The lowest out-of-range address of `len` consecutive ones from `base`, if there is one (R55, R233):
`CheckAddr(base + k)` for k in 0..len-1, in ascending order. -/
def checkRange (base len : Nat) : Option Nat := (List.range len).findSome? (fun k => checkAddr (base + k))

/-- The registers `V0`..`Vx`, in order (R184). -/
def State.regsUpTo (s : State) (x : RegIx) : List Byte := s.V.toList.take (x.val + 1)

/-- `V[i] <- v` for the i of 0..15 in turn from `i`, one for each byte of the list (R185). -/
def State.setRegsFrom (s : State) : Nat → List Byte → State
  | _, [] => s
  | i, v :: vs => if h : i < 16 then (s.setReg ⟨i, h⟩ v).setRegsFrom (i + 1) vs else s

end Sys2Proof.Machine
end

