-- ==== Sys2Proof/Machine/Ops.lean ====
section
/-! DEFINITION. The named operations over memory, PC, the stack, the timers and the draws (spec/00_scope.md R11), and
raising a fault (spec/60_exceptions.md R230). -/

namespace Sys2Proof.Machine

/-- The byte `MEM[a]` (R52). -/
def Memory.read : Memory → Nat → Byte
  | [], a => Memory.background a
  | c :: m, a => if a = c.1 then c.2 else Memory.read m a

/-- The memory with address `a` unlisted. -/
def Memory.unlist (m : Memory) (a : Nat) : Memory := m.filter (fun c => c.1 ≠ a)

/-- The memory with an unlisted address listed, in its place. -/
def Memory.list : Memory → Nat → Byte → Memory
  | [], a, v => [(a, v)]
  | c :: m, a, v => if a < c.1 then (a, v) :: c :: m else c :: Memory.list m a v

/-- `MEM[a] <- v` (R52), keeping the canonical form. -/
def Memory.write (m : Memory) (a : Nat) (v : Byte) : Memory :=
  if v = Memory.background a then m.unlist a else (m.unlist a).list a v

/-- Byte writes at ascending consecutive addresses from `a` (R56). -/
def Memory.writeBytes : Memory → Nat → List Byte → Memory
  | m, _, [] => m
  | m, a, v :: vs => Memory.writeBytes (m.write a v) (a + 1) vs

/-- Byte reads at ascending consecutive addresses from `a` (R56). -/
def Memory.readBytes (m : Memory) (a len : Nat) : List Byte := (List.range len).map (fun k => m.read (a + k))

/-- `MemRead(addr, 2)` after its checks: the big-endian word (R53). -/
def Memory.readWord (m : Memory) (a : Nat) : Word := wordOfBytes (m.read a) (m.read (a + 1))

/-- `pc <- target` (R25, R26): the instruction completes with this next PC. -/
def State.goto (s : State) (target : Word) : State := { s with PC := target }

/-- The sequential outcome, `pc0 + 2` (R26). -/
def State.advance (s : State) : State := s.goto (s.PC + 2)

/-- The skip outcome: `pc0 + 4` when the condition holds, else `pc0 + 2` (R26, R130). -/
def State.skipIf (s : State) (c : Bool) : State := s.goto (if c then s.PC + 4 else s.PC + 2)

/-- `raise K(info)` (R230, R237): the run state becomes HALTED with the record; no effect of the instruction is kept, no
handler runs (R238), and nothing returns from it (R239). Applied to the state from before the instruction. -/
def State.halt (s : State) (kind : FaultKind) (raw : Option Word) : State :=
  { s with run := .halted { kind := kind, pc := s.PC, raw := raw } }

/-- An instruction raises its own fault: a NEXT state, with the instruction's word as `raw` (R230, R231, R34).
The word is the instruction's encoding, which for the six instructions that can raise one is the word fetched
(DEDUCED, log 19, safe). -/
def State.raise (s : State) (kind : FaultKind) (i : Instr) : Result := .next (s.halt kind (some (encode i)))

/-- The cause code of a fault (R232, R233, R234). -/
def FaultKind.code : FaultKind → Nat
  | .decodeFault => 1
  | .stackFault _ => 2
  | .boundsFault _ => 3

/-- `Push(v)` (R28). -/
def State.push (s : State) (v : Word) : Except FaultKind State :=
  if h : s.SP.val < 16 then
    .ok { s with STACK := s.STACK.set s.SP.val v h, SP := ⟨s.SP.val + 1, by omega⟩ }
  else .error (.stackFault .overflow)

/-- `Pop()` (R29): the popped slot keeps its value. -/
def State.pop (s : State) : Except FaultKind (Word × State) :=
  if h : 0 < s.SP.val then
    .ok (s.STACK.get ⟨s.SP.val - 1, by omega⟩, { s with SP := ⟨s.SP.val - 1, by omega⟩ })
  else .error (.stackFault .underflow)

/-- `TimerGet(DT)` (R31). -/
def State.getDT (s : State) : Byte := s.DT

/-- `TimerSet(DT, v)` (R31). -/
def State.setDT (s : State) (v : Byte) : State := { s with DT := v }

/-- `{ old <- ST; ST <- v }` as one action (R65, R202). -/
def State.exchangeST (s : State) (v : Byte) : Byte × State := (s.ST, { s with ST := v })

/-- `draw Byte` (R163, R255): a free value, and the draw is counted, so that the next is another. -/
def State.drawByte (s : State) : Byte × State := (Config.randomByte s.draws, { s with draws := s.draws + 1 })

/-- `draw Bool` (R135, R136, R255). -/
def State.drawBool (s : State) : Bool × State := (Config.pollAbove15 s.draws, { s with draws := s.draws + 1 })

/-- `draw Word16` (R182, R255). -/
def State.drawWord (s : State) : Word × State := (Config.fontAddressAbove15 s.draws, { s with draws := s.draws + 1 })

/-- Set the index register (R24): 16 bits, no 12-bit mask. -/
def State.setI (s : State) (v : Word) : State := { s with I := v }

end Sys2Proof.Machine
end

