-- ==== Sys2Proof/Machine/Alu.lean ====
section
/-! DEFINITION. Register loads and ALU (spec/42_alu.md R150 to R164). -/

namespace Sys2Proof.Machine

/-- `V[x] <- v`, VF kept unless x = F, and `pc <- pc0 + 2` (R151 to R156). -/
def State.writeReg (s : State) (x : RegIx) (v : Byte) : Result := .next (s.setReg x v).advance

/-- `V[x] <- v`, then `VF <- f`, and `pc <- pc0 + 2`: both values are computed from the operands before the first
write, and the flag is written last (R12, R157). -/
def State.writeRegFlag (s : State) (x : RegIx) (v f : Byte) : Result :=
  .next ((s.setReg x v).setReg RegIx.VF f).advance

/-- `6xkk` LD (R151). -/
def execLdImm (x : RegIx) (kk : Byte) (s : State) : Result := s.writeReg x kk

/-- `7xkk` ADD, no flag (R152). -/
def execAddImm (x : RegIx) (kk : Byte) (s : State) : Result := s.writeReg x (aluSum (s.reg x) kk)

/-- `8xy0` LD (R153). -/
def execLdReg (x y : RegIx) (s : State) : Result := s.writeReg x (s.reg y)

/-- `8xy1` OR, VF kept (R154). -/
def execOrReg (x y : RegIx) (s : State) : Result := s.writeReg x (s.reg x ||| s.reg y)

/-- `8xy2` AND, VF kept (R155). -/
def execAndReg (x y : RegIx) (s : State) : Result := s.writeReg x (s.reg x &&& s.reg y)

/-- `8xy3` XOR, VF kept (R156). -/
def execXorReg (x y : RegIx) (s : State) : Result := s.writeReg x (s.reg x ^^^ s.reg y)

/-- `8xy4` ADD, VF = carry (R158). -/
def execAddReg (x y : RegIx) (s : State) : Result :=
  s.writeRegFlag x (aluSum (s.reg x) (s.reg y)) (carryFlag (s.reg x) (s.reg y))

/-- `8xy5` SUB, `Vx - Vy`, VF = no borrow, strict (R159). -/
def execSubReg (x y : RegIx) (s : State) : Result :=
  s.writeRegFlag x (aluDiff (s.reg x) (s.reg y)) (noBorrowFlag (s.reg x) (s.reg y))

/-- `8xy6` SHR, source `Vy`, VF = the bit shifted out (R160). -/
def execShrReg (x y : RegIx) (s : State) : Result := s.writeRegFlag x (aluShr (s.reg y)) (shrFlag (s.reg y))

/-- `8xy7` SUBN, `Vy - Vx`, VF = no borrow, strict (R161). -/
def execSubnReg (x y : RegIx) (s : State) : Result :=
  s.writeRegFlag x (aluDiff (s.reg y) (s.reg x)) (noBorrowFlag (s.reg y) (s.reg x))

/-- `8xyE` SHL, source `Vy`, VF = the bit shifted out (R162). -/
def execShlReg (x y : RegIx) (s : State) : Result := s.writeRegFlag x (aluShl (s.reg y)) (shlFlag (s.reg y))

/-- `Cxkk` RND: a fresh random byte masked by kk (R163). -/
def execRnd (x : RegIx) (kk : Byte) (s : State) : Result := s.drawByte.2.writeReg x (s.drawByte.1 &&& kk)

end Sys2Proof.Machine
end

