-- ==== Sys2Proof/Machine/Control.lean ====
section
/-! DEFINITION. Control transfer (spec/40_control_transfer.md R110 to R116). -/

namespace Sys2Proof.Machine

/-- `00EE` RET: `pc <- Pop()`, no further +2 (R110). -/
def execRet (s : State) : Result :=
  match s.pop with
  | .ok (target, t) => .next (t.goto target)
  | .error k => s.raise k .ret

/-- `0nnn` SYS: a jump if `sys_jump`, else a no-op (R111). -/
def execSys (nnn : Addr12) (s : State) : Result :=
  .next (if s.sysJump then s.goto (zext16 nnn) else s.advance)

/-- `1nnn` JP: `pc <- zext_16(nnn)` (R112). -/
def execJp (nnn : Addr12) (s : State) : Result := .next (s.goto (zext16 nnn))

/-- `2nnn` CALL: `Push(pc0 + 2); pc <- zext_16(nnn)` (R113). -/
def execCall (nnn : Addr12) (s : State) : Result :=
  match s.push (s.PC + 2) with
  | .ok t => .next (t.goto (zext16 nnn))
  | .error k => s.raise k (.call nnn)

/-- `Bnnn` JP V0: `pc <- V[0] + zext_16(nnn)`, at most 0x10FE, not reduced (R114). -/
def execJpV0 (nnn : Addr12) (s : State) : Result :=
  .next (s.goto ((s.reg RegIx.V0).zeroExtend 16 + zext16 nnn))

end Sys2Proof.Machine
end

