-- ==== Sys2Proof/Machine/Adapter.lean ====
section
/-! DEFINITION. The adapter's transactions (spec/60_exceptions.md R250 to R258): the framebuffer contract of R252 to R254,
the key poll, the key-wait request and the tone request, each recorded in order. -/

namespace Sys2Proof.Machine

/-- The pixel `FB[col mod 64][row mod 32]` (R251). -/
def Framebuffer.pixel (fb : Framebuffer) (col row : Nat) : Bool :=
  (fb.get ⟨row % 32, by omega⟩).getLsbD (col % 64)

/-- `FB[col mod 64][row mod 32] <- FB[col mod 64][row mod 32] ^ 1` (R253). -/
def Framebuffer.flip (fb : Framebuffer) (col row : Nat) : Framebuffer :=
  fb.set (row % 32) (fb.get ⟨row % 32, by omega⟩ ^^^ BitVec.twoPow 64 (col % 64)) (by omega)

/-- Every pixel off (R252). -/
def Framebuffer.blank : Framebuffer := Vector.replicate 32 0

/-- Bit `7 - j` of a sprite byte, the pixel j columns to the right of the sprite's column (R213).
PRESUMED (log 21, unsafe): the spec has this order from general knowledge (G2). -/
def spriteBit (b : Byte) (j : Nat) : Bool := b.getLsbD (7 - j)

/-- The framebuffer after `draw_sprite(b, x, y)`: for j in 0..7, flip the pixel at column x + j if the sprite's bit is
set; each pixel wraps on its own (R213, R253). -/
def Framebuffer.drawRow (fb : Framebuffer) (b : Byte) (x y : Nat) : Framebuffer :=
  (List.range 8).foldl (fun fb j => if spriteBit b j then fb.flip (x + j) y else fb) fb

/-- The answer of `check_collision(b, x, y)`: some set bit of the sprite meets a set pixel (R254). -/
def Framebuffer.collides (fb : Framebuffer) (b : Byte) (x y : Nat) : Bool :=
  (List.range 8).any (fun j => spriteBit b j && fb.pixel (x + j) y)

/-- Record a request (R250). -/
def Adapter.send (a : Adapter) (r : Request) : Adapter := { a with sent := a.sent ++ [r] }

/-- `clear_screen()` (R252). -/
def Adapter.clearScreen (a : Adapter) : Adapter := { a.send .clearScreen with fb := Framebuffer.blank }

/-- `draw_sprite(b, x, y)` (R253). -/
def Adapter.drawSprite (a : Adapter) (b x : Byte) (y : BitVec 9) : Adapter :=
  { a.send (.drawSprite b x y) with fb := a.fb.drawRow b x.toNat y.toNat }

/-- `check_collision(b, x, y) -> Bool` (R254): it does not change FB. -/
def Adapter.checkCollision (a : Adapter) (b x : Byte) (y : BitVec 9) : Bool × Adapter :=
  (a.fb.collides b x.toNat y.toNat, a.send (.checkCollision b x y))

/-- `is_key_pressed(k) -> Bool`: whether key k is held now (R256). -/
def Adapter.isKeyPressed (a : Adapter) (k : BitVec 4) : Bool × Adapter :=
  (a.keys.getLsbD k.toNat, a.send (.isKeyPressed k))

/-- `wait_for_input()`, the request (R221, R257); its answer is a key event (R223). -/
def Adapter.waitForInput (a : Adapter) : Adapter := a.send .waitForInput

/-- `play_tone(d)` (R258): fire and forget. -/
def Adapter.playTone (a : Adapter) (d : Byte) : Adapter := a.send (.playTone d)

/-- The rows of a sprite in ascending order, each a collision check and then a draw (R211, R212): the collision so far,
and the adapter. -/
def Adapter.drawRows (xc : Byte) : List Byte → BitVec 9 → Bool → Adapter → Bool × Adapter
  | [], _, c, a => (c, a)
  | b :: bs, y, c, a =>
    Adapter.drawRows xc bs (y + 1) (c || (a.checkCollision b xc y).1) ((a.checkCollision b xc y).2.drawSprite b xc y)

/-- The key poll of `Ex9E` and `ExA1` (R135, R136): key values 0..15 ask the adapter, a value above 15 is a draw. -/
def State.pollKey (s : State) (k : Byte) : Bool × State :=
  if k.toNat ≤ 0xF then
    ((s.adapter.isKeyPressed (k.setWidth 4)).1, { s with adapter := (s.adapter.isKeyPressed (k.setWidth 4)).2 })
  else s.drawBool

end Sys2Proof.Machine
end

