-- ==== Sys2Proof/Machine/Display.lean ====
section
/-! DEFINITION. Display and key-wait instructions (spec/45_display_input.md R210 to R221). -/

namespace Sys2Proof.Machine

/-- `00E0` CLS (R210). -/
def execCls (s : State) : Result := .next ({ s with adapter := s.adapter.clearScreen } : State).advance

/-- The n rows of a sprite from I, drawn at (V[x], V[y]): the collision, and the adapter afterwards (R211, R212). -/
def State.drawSprite (s : State) (x y : RegIx) (n : BitVec 4) : Bool × Adapter :=
  Adapter.drawRows (s.reg x) (s.MEM.readBytes s.I.toNat n.toNat) ((s.reg y).zeroExtend 9) false s.adapter

/-- `Dxyn` DRW: n rows from I at (V[x], V[y]), VF = collision (R211, R212). The coordinates are read before VF is written;
every check precedes every effect; n = 0 sends no request and leaves VF = 0. -/
def execDrw (x y : RegIx) (n : BitVec 4) (s : State) : Result :=
  match checkRange s.I.toNat n.toNat with
  | some addr => s.raise (.boundsFault addr) (.drw x y n)
  | none =>
    .next (({ s with adapter := (s.drawSprite x y n).2 } : State).setReg RegIx.VF (flag (s.drawSprite x y n).1)).advance

/-- `Fx0A` LD Vx,K, its first phase (R220, R221): the run state becomes WAIT_KEY(x, pc0), one `wait_for_input()` request is
sent, and PC stays pc0. The second phase is `State.deliverKey` (R223). -/
def execLdVxK (x : RegIx) (s : State) : Result :=
  .next { s with run := .waitKey x s.PC, adapter := s.adapter.waitForInput }

end Sys2Proof.Machine
end

