-- ==== Sys2Proof/Machine/IndexMemory.lean ====
section
/-! DEFINITION. The index register and memory transfers (spec/43_index_memory.md R180 to R186). None of them changes I as a
side effect of an access (R24), and every check precedes every effect (R101). -/

namespace Sys2Proof.Machine

/-- `Annn` LD I: `I <- zext_16(nnn)` (R180). -/
def execLdI (nnn : Addr12) (s : State) : Result := .next (s.setI (zext16 nnn)).advance

/-- `Fx1E` ADD I: `I <- (I + V[x]) mod 65536`, VF kept (R181). -/
def execAddI (x : RegIx) (s : State) : Result :=
  .next (s.setI (BitVec.ofNat 16 (s.I.toNat + (s.reg x).toNat))).advance

/-- `find_font_sprite_address(d)` for a digit 0..15: `5 * d` (R59). -/
def fontAddress (d : Byte) : Word := BitVec.ofNat 16 (5 * d.toNat)

/-- `Fx29` LD F: `I <- 5 * V[x]` for a digit, a free 16-bit value above 15 (R182). -/
def execLdF (x : RegIx) (s : State) : Result :=
  if (s.reg x).toNat ≤ 0xF then .next (s.setI (fontAddress (s.reg x))).advance
  else .next (s.drawWord.2.setI s.drawWord.1).advance

/-- The decimal digits of a byte: hundreds, tens, units (R183). -/
def bcdDigits (v : Byte) : List Byte :=
  [BitVec.ofNat 8 (v.toNat / 100), BitVec.ofNat 8 (v.toNat / 10 % 10), BitVec.ofNat 8 (v.toNat % 10)]

/-- Store bytes at `I`, `I+1`, ... after checking every address; I is not changed (R183, R184). -/
def State.storeAtI (s : State) (vs : List Byte) (i : Instr) : Result :=
  match checkRange s.I.toNat vs.length with
  | some addr => s.raise (.boundsFault addr) i
  | none => .next ({ s with MEM := s.MEM.writeBytes s.I.toNat vs } : State).advance

/-- `Fx33` LD B: the decimal digits of V[x] at I, I+1, I+2 (R183). -/
def execLdB (x : RegIx) (s : State) : Result := s.storeAtI (bcdDigits (s.reg x)) (.ldB x)

/-- `Fx55` LD [I]: V0..Vx at I..I+x (R184). -/
def execLdMemStore (x : RegIx) (s : State) : Result := s.storeAtI (s.regsUpTo x) (.ldMemStore x)

/-- `Fx65` LD Vx,[I]: V0..Vx from I..I+x after checking every address (R185). -/
def execLdMemLoad (x : RegIx) (s : State) : Result :=
  match checkRange s.I.toNat (x.val + 1) with
  | some addr => s.raise (.boundsFault addr) (.ldMemLoad x)
  | none => .next (s.setRegsFrom 0 (s.MEM.readBytes s.I.toNat (x.val + 1))).advance

end Sys2Proof.Machine
end

