-- ==== Sys2Proof/Machine/Skips.lean ====
section
/-! DEFINITION. Conditional skips (spec/41_skips.md R130 to R136). -/

namespace Sys2Proof.Machine

/-- `3xkk` SE (R131). -/
def execSeImm (x : RegIx) (kk : Byte) (s : State) : Result := .next (s.skipIf (s.reg x == kk))

/-- `4xkk` SNE (R132). -/
def execSneImm (x : RegIx) (kk : Byte) (s : State) : Result := .next (s.skipIf (s.reg x != kk))

/-- `5xyN` SE (R133). -/
def execSeReg (x y : RegIx) (s : State) : Result := .next (s.skipIf (s.reg x == s.reg y))

/-- `9xyN` SNE (R134). -/
def execSneReg (x y : RegIx) (s : State) : Result := .next (s.skipIf (s.reg x != s.reg y))

/-- `Ex9E` SKP: skip if the key is pressed (R135). -/
def execSkp (x : RegIx) (s : State) : Result :=
  .next ((s.pollKey (s.reg x)).2.skipIf (s.pollKey (s.reg x)).1)

/-- `ExA1` SKNP: skip if the key is not pressed (R136). -/
def execSknp (x : RegIx) (s : State) : Result :=
  .next ((s.pollKey (s.reg x)).2.skipIf (!(s.pollKey (s.reg x)).1))

end Sys2Proof.Machine
end

