-- ==== Sys2Proof/Machine/Timers.lean ====
section
/-! DEFINITION. Timer instructions (spec/44_timers.md R200 to R203). -/

namespace Sys2Proof.Machine

/-- `Fx07` LD Vx,DT: the timer's value at the moment of the read (R200). -/
def execLdVxDT (x : RegIx) (s : State) : Result := .next (s.setReg x s.getDT).advance

/-- `Fx15` LD DT,Vx (R201). -/
def execLdDTVx (x : RegIx) (s : State) : Result := .next (s.setDT (s.reg x)).advance

/-- The tone request of `Fx18`: only on a transition of ST from zero to nonzero (R202). -/
def toneRequest (old v : Byte) (a : Adapter) : Adapter := if old = 0 ∧ v ≠ 0 then a.playTone v else a

/-- `Fx18` LD ST,Vx: read the old ST and write the new one in one action, then request the tone (R202). -/
def execLdSTVx (x : RegIx) (s : State) : Result :=
  .next ({ (s.exchangeST (s.reg x)).2 with
    adapter := toneRequest (s.exchangeST (s.reg x)).1 (s.reg x) s.adapter } : State).advance

end Sys2Proof.Machine
end

