-- ==== Sys2Proof/Machine/Environment.lean ====
section
/-! DEFINITION. The agents beside the interpreter (spec/00_scope.md R6): the timer tick processes (R240), the adapter's
keyboard and key events (R223, R256, R257), and the host's stop (R260). -/

namespace Sys2Proof.Machine

/-- One decrement step of a timer: a timer at 0 stays 0 (R240). -/
def tick (t : Byte) : Byte := if 0 < t.toNat then t - 1 else t

/-- Any number of decrement steps (R241). -/
def ticks : Nat → Byte → Byte
  | 0, t => t
  | k + 1, t => ticks k (tick t)

/-- The environment's turn: each timer takes its decrement steps, the keyboard changes, and the turn is counted
(R66, R222, R240, R256). DESIGN CHOICE (log 13, safe): the counts are free values. -/
def State.environmentTurn (s : State) (e : EnvTurn) : State :=
  { s with
    DT := ticks e.dtTicks s.DT
    ST := ticks e.stTicks s.ST
    adapter := { s.adapter with keys := e.keys }
    turn := s.turn + 1 }

/-- The environment's turn after an interpreter step: the timers tick in RUNNING and WAIT_KEY (R243).
DESIGN CHOICE (log 15, safe): they stop once a fault has halted the machine, which R243 leaves open. -/
def State.afterStep (s : State) (e : EnvTurn) : State :=
  match s.run with
  | .running | .waitKey _ _ => s.environmentTurn e
  | .halted _ | .stopped => s

/-- A key event completes the `Fx0A` at `pc0`: `V[x] <- k`, `PC <- pc0 + 2`, RUNNING (R223). -/
def State.deliverKey (s : State) (x : RegIx) (pc0 : Word) (k : BitVec 4) : State :=
  { s.setReg x (k.zeroExtend 8) with PC := pc0 + 2, run := .running }

/-- One turn of a key wait: the interpreter takes no step (R221); the environment takes its turn (R222); if it reports
a key press the wait completes, and if it does not the wait goes on (R223, I13). -/
def State.waitTurn (s : State) (e : EnvTurn) (x : RegIx) (pc0 : Word) : State :=
  match e.keyPress with
  | some k => (s.environmentTurn e).deliverKey x pc0 k
  | none => s.environmentTurn e

/-- `stop` (R224, R260): STOPPED from RUNNING or WAIT_KEY, nothing else changed; HALTED and STOPPED are absorbing (R33).
The host's request is served. -/
def State.stop (s : State) : State :=
  match s.run with
  | .running | .waitKey _ _ => { s with run := .stopped, host := .step }
  | .halted _ | .stopped => s

end Sys2Proof.Machine
end

