-- ==== Sys2Proof/Machine/Fetch.lean ====
section
/-! DEFINITION. Fetch and decode (spec/30_encoding.md R100): the bounds check of both bytes, the big-endian word, the decoder. -/

namespace Sys2Proof.Machine

/-- The word at PC, after its two checks (R53, R100): the lowest out-of-range address if a check fails (R233). -/
def State.fetch (s : State) : Except FaultKind Word :=
  match checkRange s.PC.toNat 2 with
  | some addr => .error (.boundsFault addr)
  | none => .ok (s.MEM.readWord s.PC.toNat)

/-- Fetch, then decode (R100): the instruction, or the fault in the order of R236 with its `raw` (absent for a fetch that
faults, the word for an illegal one: R232, R233). -/
def State.fetchDecode (s : State) : Except (FaultKind × Option Word) Instr :=
  match s.fetch with
  | .error k => .error (k, none)
  | .ok w =>
    match decode w with
    | .ok i => .ok i
    | .error _ => .error (.decodeFault, some w)

/-- Store an instruction's word where the next fetch reads it: its bytes at PC and PC + 1, as far as they exist. -/
def Memory.placeWord (m : Memory) (a : Nat) (w : Word) : Memory :=
  if a + 1 < Config.memSize then m.writeBytes a (bytesOfWord w) else m

end Sys2Proof.Machine
end

