-- ==== Sys2Proof/Machine/Step.lean ====
section
/-! DEFINITION. One step of the machine (spec/30_encoding.md R100, spec/10_state.md R33): the host's pending request is
served; a step request runs one instruction and then the environment's turn, or one turn of a key wait. -/

namespace Sys2Proof.Machine

/-- One instruction (R100), then the environment's turn `e`. A fault of the fetch or of the decoder halts the machine
(R230, R232, R233). -/
def stepRunning (e : EnvTurn) (s : State) : Host.Outcome State Fault Refusal :=
  match s.fetchDecode with
  | .error (k, raw) => .next (s.halt k raw)
  | .ok i =>
    match exec i s with
    | .next t => .next (t.afterStep e)
    | .fault f => .fault f
    | .refused r => .refused r

/-- One step in which the environment's turn, where there is one, is `e`. HALTED and STOPPED are absorbing: a step request
in HALTED returns the same fault record (R239), and one in STOPPED is refused (log 2). -/
def stepWith (e : EnvTurn) (s : State) : Host.Outcome State Fault Refusal :=
  match s.run with
  | .halted r => .fault (.halted r)
  | .stopped => .refused .stopped
  | .running =>
    match s.host with
    | .stop => .next s.stop
    | .step => stepRunning e s
  | .waitKey x pc0 =>
    match s.host with
    | .stop => .next s.stop
    | .step => .next (s.waitTurn e x pc0)

/-- One step: the environment's turn is a free value (log 13). -/
def step (s : State) : Host.Outcome State Fault Refusal := stepWith (Config.envTurn s.turn) s

/-- The state with the table word `w` stored where the next step fetches (log 20): the machine is RUNNING, the host
requests a step, and the word's bytes are at PC and PC + 1. -/
def State.withFetchWord (s : State) (nbits w : Nat) : State :=
  { s with run := .running, host := .step, MEM := s.MEM.placeWord s.PC.toNat (tableWord nbits w) }

end Sys2Proof.Machine
end

