-- ==== Sys2Proof/Machine/Construct.lean ====
section
/-! DEFINITION. The host's `construct` transaction (spec/70_reset_and_hazards.md R270, spec/60_exceptions.md R259): the machine
from an image and the parameters the spec leaves open (spec/00_scope.md R8). -/

namespace Sys2Proof.Machine

/-- The open parameters (R8), each an argument, and the keyboard at construction (log 11). -/
structure Params where
  /-- `sys_jump` -/
  sysJump : Bool
  /-- `FONT` -/
  font : Vector Byte 80
  /-- `reset_V` -/
  V : Vector Byte 16
  /-- `reset_I` -/
  I : Word
  /-- `reset_stack` -/
  stack : Vector Word 16
  /-- `mem_fill` -/
  memFill : Nat → Byte
  /-- `fb_init` -/
  fb : Framebuffer
  /-- the keys held at construction; the spec names no such parameter (log 11) -/
  keys : BitVec 16

/-- The byte at an address at construction (R37, R270): the font, the image, or `mem_fill`. -/
def Params.initialByte (p : Params) (image : List Byte) (a : Nat) : Byte :=
  if h : a < 80 then p.font[a]
  else if Config.programBase ≤ a ∧ a < Config.programBase + image.length then image.getD (a - Config.programBase) 0
  else p.memFill a

/-- The memory whose byte at each address is given, in canonical form. -/
def Memory.tabulate (f : Nat → Byte) : Memory :=
  (List.range Config.memSize).filterMap (fun a => if f a = Memory.background a then none else some (a, f a))

/-- `construct` (R69, R270): refused for an image longer than 3584 bytes, else the reset state of R37. -/
def construct (p : Params) (image : List Byte) : Option State :=
  if image.length > Config.maxImage then none
  else some
    { V := p.V
      I := p.I
      PC := 0x200
      SP := 0
      STACK := p.stack
      DT := 0
      ST := 0
      MEM := Memory.tabulate (p.initialByte image)
      run := .running
      sysJump := p.sysJump
      adapter := { fb := p.fb, keys := p.keys, sent := [] }
      host := .step
      draws := 0
      turn := 0 }

/-- The parameters `State.reset` is built with: the spec's defaults (sys_jump false, the standard font), and the
DESIGN CHOICE values of logs 3, 4, 5, 7, 10, 11 where the spec gives none. -/
def Params.default : Params :=
  { sysJump := false
    font := ⟨defaultFont.toArray, by decide⟩
    V := Vector.replicate 16 0
    I := 0
    stack := Vector.replicate 16 0
    memFill := fun _ => 0
    fb := Framebuffer.blank
    keys := 0 }

end Sys2Proof.Machine
end

