-- ==== Sys2Proof/Safety.lean ====
section
/-! DEFINITION. What counts as a sound state and as a run, in the terms the statements use: the invariant every step keeps, the moves of
every agent and reachability from construction, runs under a chosen environment, the fault the spec gives a step, and which
registers an instruction may write. None of the machine's definitions uses these. -/

namespace Sys2Proof.Safety

open Sys2Proof.Machine

/-- What every step keeps: memory in canonical form (R50), PC never above 0x10FE (R26), every return address on the stack at
most 0x1000 (R26, R110), a key wait that holds the PC of a fetched `Fx0A` (R221), and a fault record that names PC (R237). -/
structure Inv (s : State) : Prop where
  memory : s.MEM.wf
  pc : s.PC.toNat ≤ 0x10FE
  stack : ∀ j : Fin 16, j.val < s.SP.val → (s.STACK.get j).toNat ≤ 0x1000
  wait : ∀ x pc0, s.run = .waitKey x pc0 → pc0 = s.PC ∧ pc0.toNat ≤ 0xFFE
  halted : ∀ r, s.run = .halted r → r.pc = s.PC

/-- One move of the block under any environment: a step with any environment turn, or the host choosing its next
transaction (R6, R250, R259). -/
inductive Move : State → State → Prop where
  | step {s t : State} (e : EnvTurn) (h : stepWith e s = .next t) : Move s t
  | request (s : State) (r : HostRequest) : Move s { s with host := r }

/-- Any number of moves. -/
inductive Reaches (s : State) : State → Prop where
  | refl : Reaches s s
  | move {t u : State} (h : Reaches s t) (m : Move t u) : Reaches s u

/-- `k` step requests, the environment's turns chosen by `env`. -/
def runWith (env : Nat → EnvTurn) : Nat → State → Result
  | 0, s => .next s
  | k + 1, s =>
    match stepWith (env s.turn) s with
    | .next t => runWith env k t
    | .fault f => .fault f
    | .refused r => .refused r

/-- The fairness the spec lets a model assume (R241): each timer ticks again and again. -/
def TimersFair (env : Nat → EnvTurn) : Prop :=
  ∀ n, (∃ m, n ≤ m ∧ 0 < (env m).dtTicks) ∧ (∃ m, n ≤ m ∧ 0 < (env m).stTicks)

/-- The bounds fault of `len` accesses from `base`, if there is one: the lowest out-of-range address (R233). -/
def boundsFaultOf (base len : Nat) : Option FaultKind :=
  if 0 < len ∧ 0xFFF < base + len - 1 then some (.boundsFault (max base 0x1000)) else none

/-- The fault an instruction itself raises in a state, if any (R236(3)): at most one kind per instruction. -/
def ownFault (i : Instr) (s : State) : Option FaultKind :=
  match i with
  | .call _ => if s.SP.val = 16 then some (.stackFault .overflow) else none
  | .ret => if s.SP.val = 0 then some (.stackFault .underflow) else none
  | .drw _ _ n => boundsFaultOf s.I.toNat n.toNat
  | .ldB _ => boundsFaultOf s.I.toNat 3
  | .ldMemStore x => boundsFaultOf s.I.toNat (x.val + 1)
  | .ldMemLoad x => boundsFaultOf s.I.toNat (x.val + 1)
  | _ => none

/-- The word at PC, high byte at the lower address (R53). -/
def wordAtPC (s : State) : Word :=
  BitVec.ofNat 16 (256 * (s.MEM.read s.PC.toNat).toNat + (s.MEM.read (s.PC.toNat + 1)).toNat)

/-- The fault record of a step from RUNNING, if it faults, in the order of R236: the fetch's bounds, the decoder, the
instruction's own. -/
def faultOf (s : State) : Option FaultRecord :=
  if 0xFFF < s.PC.toNat + 1 then some { kind := .boundsFault (max s.PC.toNat 0x1000), pc := s.PC, raw := none }
  else
    match decode (wordAtPC s) with
    | .error _ => some { kind := .decodeFault, pc := s.PC, raw := some (wordAtPC s) }
    | .ok i => (ownFault i s).map fun k => { kind := k, pc := s.PC, raw := some (wordAtPC s) }

/-- The state halted with a record, all else as it was (R237). -/
def haltedWith (s : State) (r : FaultRecord) : State := { s with run := .halted r }

/-- The words R87 calls illegal. -/
def illegalWord (w : Word) : Prop :=
  (w.toNat / 4096 = 0x8 ∧ w.toNat % 16 ∈ [0x8, 0x9, 0xA, 0xB, 0xC, 0xD, 0xF]) ∨
  (w.toNat / 4096 = 0xE ∧ w.toNat % 256 ∉ [0x9E, 0xA1]) ∨
  (w.toNat / 4096 = 0xF ∧ w.toNat % 256 ∉ [0x07, 0x0A, 0x15, 0x18, 0x1E, 0x29, 0x33, 0x55, 0x65])

/-- The general registers an instruction may write, as its result or as the flag (R21, R22). `Fx0A` writes none when it
begins: its register is written when the key arrives (R223). -/
def mayWrite (i : Instr) (r : RegIx) : Bool :=
  match i with
  | .ldImm x _ | .addImm x _ | .ldReg x _ | .orReg x _ | .andReg x _ | .xorReg x _ | .rnd x _ | .ldVxDT x => r == x
  | .addReg x _ | .subReg x _ | .shrReg x _ | .subnReg x _ | .shlReg x _ => r == x || r == RegIx.VF
  | .drw _ _ _ => r == RegIx.VF
  | .ldMemLoad x => decide (r.val ≤ x.val)
  | _ => false

/-- The framebuffer after the first `r` rows of the sprite at I, drawn at (V[x], V[y]) (R211, R253). -/
def fbAfterRows (s : State) (x y : RegIx) : Nat → Framebuffer
  | 0 => s.adapter.fb
  | r + 1 => (fbAfterRows s x y r).drawRow (s.MEM.read (s.I.toNat + r)) (s.reg x).toNat ((s.reg y).toNat + r)

/-- Row `r` of that sprite meets a set pixel, on the framebuffer the earlier rows left (R212, R254). -/
def rowCollides (s : State) (x y : RegIx) (r : Nat) : Prop :=
  (fbAfterRows s x y r).collides (s.MEM.read (s.I.toNat + r)) (s.reg x).toNat ((s.reg y).toNat + r) = true

/-- The two requests of row `r` (R211). -/
def rowRequests (s : State) (x y : RegIx) (r : Nat) : List Request :=
  [.checkCollision (s.MEM.read (s.I.toNat + r)) (s.reg x) (BitVec.ofNat 9 ((s.reg y).toNat + r)),
   .drawSprite (s.MEM.read (s.I.toNat + r)) (s.reg x) (BitVec.ofNat 9 ((s.reg y).toNat + r))]

end Sys2Proof.Safety
end

