-- ==== Sys2Proof/Certificates/Slice0/Obligations.lean ====
section
/-! DEFINITION. The statements for the provers, from the numbered rules of spec/. Where a clause rests on a decision of the spec
(92_eei_decisions.md D<n>) or on a choice of the model (notes/assumptions/<n>.md), its docstring says so. -/

open Sys2Proof Sys2Proof.Machine Sys2Proof.Safety

/-! ## Encoding -/

/-- Words written out from the patterns of R90, one or more of each format, decode to their instructions. -/
def Obligations.DecodeSampleWords : Prop :=
  decode 0x00E0 = .ok .cls ∧ decode 0x0123 = .ok (.sys 0x123) ∧ decode 0x2300 = .ok (.call 0x300) ∧
  decode 0x3342 = .ok (.seImm 3 0x42) ∧ decode 0x8F14 = .ok (.addReg 15 1) ∧ decode 0x801E = .ok (.shlReg 0 1) ∧
  decode 0xD125 = .ok (.drw 1 2 5) ∧ decode 0xE5A1 = .ok (.sknp 5) ∧ decode 0xF30A = .ok (.ldVxK 3) ∧
  decode 0xF265 = .ok (.ldMemLoad 2) ∧ decode 0x8008 = .error (.illegalFamily8 8)

/-- Decoding the bytes of any well-formed instruction gives it back, with every operand at every value, and leaves the
bytes after it (R80, R84, R90). -/
def Obligations.DecodeOfEncodeIsIdentity : Prop :=
  ∀ (i : Instr) (rest : List Byte), i.wellFormed = true → decodeBytes (encodeBytes i ++ rest) = .ok (i, rest)

/-- The nibble N of `5xyN` and `9xyN` is ignored and its canonical value is 0 (decision D13); every other instruction
examines all its bits, so its word is the only one that decodes to it; and only well-formed instructions are decoded. -/
def Obligations.OnlySkipNibbleIsDontCare : Prop :=
  (∀ (x y : RegIx) (n : BitVec 4), decode (wordXYN 0x5 x y n) = .ok (.seReg x y) ∧
    decode (wordXYN 0x9 x y n) = .ok (.sneReg x y)) ∧
  (∀ x y : RegIx, encode (.seReg x y) = wordXYN 0x5 x y 0 ∧ encode (.sneReg x y) = wordXYN 0x9 x y 0) ∧
  ∀ (w : Word) (i : Instr), decode w = .ok i →
    i.wellFormed = true ∧ ((∀ x y, i ≠ .seReg x y) → (∀ x y, i ≠ .sneReg x y) → encode i = w)

/-- In family 0 the two exact words are CLS and RET, and every other word is SYS (R86). -/
def Obligations.FamilyZeroPrecedence : Prop :=
  decode 0x00E0 = .ok .cls ∧ decode 0x00EE = .ok .ret ∧
  ∀ nnn : Addr12, nnn ≠ 0x0E0 → nnn ≠ 0x0EE → decode (wordNNN 0x0 nnn) = .ok (.sys nnn)

/-- A decoded instruction's word matches its row of the opcode table; and a word that matches an instruction's row
decodes to an instruction of that row, but for CLS and RET taking precedence over SYS. -/
def Obligations.DecodeFollowsOpcodeTable : Prop :=
  (∀ (w : Word) (i : Instr), decode w = .ok i → i.row.covers w = true) ∧
  ∀ (w : Word) (i : Instr), i.row.covers w = true →
    ∃ j, decode w = .ok j ∧ (j.row = i.row ∨ (i.row = (Instr.sys 0).row ∧ (j = .cls ∨ j = .ret)))

/-- The decoder rejects exactly the words R87 lists. -/
def Obligations.IllegalWordsAreThoseOfR87 : Prop :=
  ∀ w : Word, illegalWord w ↔ ∃ err, decode w = .error err

/-! ## The step -/

/-- The fetch reads the big-endian word at PC, the byte at the lower address in bits 15:8, when both addresses exist, and
raises the bounds fault of the lowest out-of-range address when they do not (R53). -/
def Obligations.FetchIsBigEndianAndChecked : Prop :=
  ∀ s : State,
    (s.PC.toNat + 1 ≤ 0xFFF → s.fetch = .ok (wordAtPC s) ∧
      (wordAtPC s).toNat = 256 * (s.MEM.read s.PC.toNat).toNat + (s.MEM.read (s.PC.toNat + 1)).toNat) ∧
    (0xFFF < s.PC.toNat + 1 → s.fetch = .error (.boundsFault (max s.PC.toNat 0x1000)))

/-- When the word at PC decodes to `i`, a step request in RUNNING is `exec i` and then the environment's turn; and `step`
is that step under the free environment. -/
def Obligations.StepRunsDecodedInstruction : Prop :=
  (∀ (e : EnvTurn) (s t : State) (i : Instr), s.run = .running → s.host = .step → s.PC.toNat + 1 ≤ 0xFFF →
    decode (wordAtPC s) = .ok i → exec i s = .next t → stepWith e s = .next (t.afterStep e)) ∧
  ∀ s : State, step s = stepWith (Config.envTurn s.turn) s

/-- A table word placed where the next step fetches is the instruction the next step runs (log 20: `withFetchWord` stands for
the load of a program). -/
def Obligations.PlacedWordRunsNext : Prop :=
  ∀ (s : State) (w : Nat) (i : Instr), s.PC.toNat + 1 ≤ 0xFFF → decodeTableWord 16 w = some i →
    (s.withFetchWord 16 w).fetchDecode = .ok i ∧
    ∀ t, exec i (s.withFetchWord 16 w) = .next t →
      step (s.withFetchWord 16 w) = .next (t.afterStep (Config.envTurn s.turn))

/-- A step from RUNNING faults exactly when the spec says, with the record it says, in the order fetch bounds, decoder,
instruction; and then nothing but the run state changes (R233, R234, R236, R237; decisions D9, D16, D27, D29). Otherwise it
goes on without a fault. Log 1: the faulting step is a next state. -/
def Obligations.StepFaultsExactlyAsSpecified : Prop :=
  ∀ (e : EnvTurn) (s : State), s.run = .running → s.host = .step →
    (∀ r, faultOf s = some r → stepWith e s = .next (haltedWith s r)) ∧
    (faultOf s = none → ∃ t, stepWith e s = .next t ∧ ∀ r, t.run ≠ .halted r)

/-- An illegal word halts the machine with a DecodeFault of cause code 1 that records PC and the word, and nothing else
changes (R87, R164, R232; the code and the record are decision D29's, the unchanged state D9's; log 1: a next state). -/
def Obligations.IllegalWordHaltsMachine : Prop :=
  ∀ (e : EnvTurn) (s : State), s.run = .running → s.host = .step → s.PC.toNat + 1 ≤ 0xFFF → illegalWord (wordAtPC s) →
    stepWith e s = .next (haltedWith s
      { kind := .decodeFault, pc := s.PC, raw := some (wordAtPC s) }) ∧
    FaultKind.decodeFault.code = 1

/-- Whatever faults, the fault is precise: the state differs in the run state alone, the record's pc is PC, and its raw is
the fetched word, absent when the fetch itself faulted (R237, R34; decisions D9, D17, D29). -/
def Obligations.FaultsArePrecise : Prop :=
  ∀ (e : EnvTurn) (s t : State) (r : FaultRecord), s.run = .running → stepWith e s = .next t → t.run = .halted r →
    t = { s with run := .halted r } ∧ r.pc = s.PC ∧
    (s.PC.toNat + 1 ≤ 0xFFF → r.raw = some (wordAtPC s)) ∧ (0xFFF < s.PC.toNat + 1 → r.raw = none)

/-- A step stops only in HALTED, with the same record, and in STOPPED (the refusal there is the model's choice, log 2);
from RUNNING and WAIT_KEY every step has a next state (R239, R246; decision D17). -/
def Obligations.StepStopsOnlyAfterTheRunEnded : Prop :=
  ∀ (e : EnvTurn) (s : State),
    (∀ r, s.run = .halted r → stepWith e s = .fault (.halted r)) ∧
    (s.run = .stopped → stepWith e s = .refused .stopped) ∧
    ((∀ r, s.run ≠ .halted r) → s.run ≠ .stopped → ∃ t, stepWith e s = .next t)

/-- A stop request in RUNNING or in a key wait gives STOPPED with every register, the stack, the timers, the memory and the
adapter as they were: the pending `Fx0A` does not complete (R260, R224; decisions D20, D30). -/
def Obligations.StopGivesStopped : Prop :=
  ∀ (e : EnvTurn) (s : State), s.host = .stop → (s.run = .running ∨ ∃ x pc0, s.run = .waitKey x pc0) →
    stepWith e s = .next { s with run := .stopped, host := .step }

/-! ## Key wait, timers -/

/-- `Fx0A` enters WAIT_KEY with one `wait_for_input()` request and nothing else changed; while it waits without a key press
only the timers, the keyboard and the turn count change, the timers by their decrements; a key press k writes V[x], PC and
the run state (R221, R222, R223; decision D20). The model's choices: the environment's turn in a wait step and its count
(log 13), and that the key lands in that step, after its ticks (log 14). -/
def Obligations.KeyWaitTwoPhases : Prop :=
  (∀ (x : RegIx) (s : State), ∃ t, exec (.ldVxK x) s = .next t ∧ t.run = .waitKey x s.PC ∧
    t.adapter.sent = s.adapter.sent ++ [.waitForInput] ∧
    t = { s with run := t.run, adapter := { s.adapter with sent := t.adapter.sent } }) ∧
  (∀ (e : EnvTurn) (x : RegIx) (pc0 : Word) (s : State), s.run = .waitKey x pc0 → s.host = .step →
    ∃ t, stepWith e s = .next t ∧
      t.DT.toNat = s.DT.toNat - e.dtTicks ∧ t.ST.toNat = s.ST.toNat - e.stTicks ∧
      t.adapter = { s.adapter with keys := e.keys } ∧ t.turn = s.turn + 1 ∧
      (e.keyPress = none → t = { s with DT := t.DT, ST := t.ST, adapter := t.adapter, turn := t.turn }) ∧
      (∀ k, e.keyPress = some k → (∀ r, t.reg r = if r = x then k.zeroExtend 8 else s.reg r) ∧ t.PC = pc0 + 2 ∧
        t.run = .running ∧
        t = { s with V := t.V, PC := t.PC, run := t.run, DT := t.DT, ST := t.ST, adapter := t.adapter, turn := t.turn }))

/-- Under a fair environment that never reports a key, a key wait goes on for ever, and yet DT reaches 0 in it: some number
of steps later the machine is still in the same wait with V, I, PC, the stack and the memory unchanged and DT = 0 (R222,
R240, R241; 93_implementation_defined.md I13; the environment's turns are log 13's). -/
def Obligations.DelayTimerRunsOutInKeyWait : Prop :=
  ∀ (env : Nat → EnvTurn) (s : State) (x : RegIx) (pc0 : Word), TimersFair env → (∀ n, (env n).keyPress = none) →
    s.run = .waitKey x pc0 → s.host = .step →
    ∃ k t, runWith env k s = .next t ∧ t.DT = 0 ∧ t.run = s.run ∧ t.V = s.V ∧ t.I = s.I ∧ t.PC = s.PC ∧ t.SP = s.SP ∧
      t.STACK = s.STACK ∧ t.MEM = s.MEM

/-- One decrement step takes 1 from a nonzero timer and leaves 0 at 0; k of them take k, down to 0 (R240). -/
def Obligations.TimerTickSaturatesAtZero : Prop :=
  (∀ v : Byte, (0 < v.toNat → (tick v).toNat = v.toNat - 1) ∧ (v = 0 → tick v = 0)) ∧
  ∀ (k : Nat) (v : Byte), (ticks k v).toNat = v.toNat - k

/-- Between two instructions the environment changes the timers, by any number of decrements, the keyboard and the turn
count, and nothing else (R66, R240, R244, R256; the environment's turn is log 13's). -/
def Obligations.EnvironmentTouchesOnlyItsOwn : Prop :=
  ∀ (e : EnvTurn) (s : State), s.run = .running →
    (s.afterStep e).DT.toNat = s.DT.toNat - e.dtTicks ∧ (s.afterStep e).ST.toNat = s.ST.toNat - e.stTicks ∧
    (s.afterStep e).adapter = { s.adapter with keys := e.keys } ∧
    s.afterStep e = { s with DT := (s.afterStep e).DT, ST := (s.afterStep e).ST, adapter := (s.afterStep e).adapter,
                             turn := s.turn + 1 }

/-- A step that does not run `Fx15` never raises DT, and one that does not run `Fx18` never raises ST (R242; the environment's turns are log 13's). -/
def Obligations.TimersNeverRiseUnlessSet : Prop :=
  ∀ (e : EnvTurn) (s t : State), stepWith e s = .next t →
    ((∀ x, s.fetchDecode ≠ .ok (.ldDTVx x)) → t.DT.toNat ≤ s.DT.toNat) ∧
    ((∀ x, s.fetchDecode ≠ .ok (.ldSTVx x)) → t.ST.toNat ≤ s.ST.toNat)

/-! ## Reset and invariants -/

/-- `construct` refuses an image longer than 3584 bytes and otherwise gives the reset state, for every value of the
parameters: PC 0x200, SP, DT, ST 0, RUNNING, no request sent, the parameters where R270 puts them, and memory holding the
font, the image and `mem_fill` (R37, R270, R271; SP, DT, ST 0 are decision D14's, the refusal D24's; `keys` is log 11's). -/
def Obligations.ConstructGivesResetState : Prop :=
  ∀ (p : Params) (image : List Byte),
    (3584 < image.length → construct p image = none) ∧
    (image.length ≤ 3584 → ∃ s, construct p image = some s ∧
      s.PC = 0x200 ∧ s.SP = 0 ∧ s.DT = 0 ∧ s.ST = 0 ∧ s.run = .running ∧ s.host = .step ∧
      s.V = p.V ∧ s.I = p.I ∧ s.STACK = p.stack ∧ s.sysJump = p.sysJump ∧
      s.adapter = { fb := p.fb, keys := p.keys, sent := [] } ∧
      (∀ (a : Nat) (h : a < 80), s.MEM.read a = p.font[a]) ∧
      (∀ (a : Nat) (h : a < image.length), s.MEM.read (0x200 + a) = image[a]) ∧
      (∀ a : Nat, 80 ≤ a → a < 0x1000 → a < 0x200 ∨ 0x200 + image.length ≤ a → s.MEM.read a = p.memFill a))

/-- `State.reset` is the construction from no image with the model's default parameters: a choice of the model (logs 3, 4, 5,
7, 8, 9, 10, 11). -/
def Obligations.ResetIsDefaultConstruction : Prop := construct Params.default [] = some State.reset

/-- The invariant holds at reset. -/
def Obligations.ResetMeetsInvariant : Prop := Inv State.reset

/-- Every step, under every environment turn and so under the free one, keeps the invariant (R26, R50, R110, R237). -/
def Obligations.StepKeepsInvariant : Prop :=
  ∀ s t : State, Inv s → (step s = .next t ∨ ∃ e, stepWith e s = .next t) → Inv t

/-- Every state any moves of the agents reach from a construction, whatever the parameters and the image, meets the
invariant: memory canonical, PC at most 0x10FE, return addresses at most 0x1000 (R26). -/
def Obligations.ReachableStatesMeetInvariant : Prop :=
  ∀ (p : Params) (image : List Byte) (s t : State), construct p image = some s → Reaches s t → Inv t

/-! ## Which instruction may change what -/

/-- No instruction other than `2nnn` and `00EE` writes the stack or SP (R30). -/
def Obligations.OnlyCallAndReturnTouchStack : Prop :=
  ∀ (i : Instr) (s t : State), exec i s = .next t → i ≠ .ret → (∀ nnn, i ≠ .call nnn) →
    t.SP = s.SP ∧ t.STACK = s.STACK

/-- No instruction other than `Fx33` and `Fx55` changes a byte of memory (R51). -/
def Obligations.OnlyStoresChangeMemory : Prop :=
  ∀ (i : Instr) (s t : State), exec i s = .next t → (∀ x, i ≠ .ldB x) → (∀ x, i ≠ .ldMemStore x) →
    ∀ a, t.MEM.read a = s.MEM.read a

/-- A general register is written only by the instructions R21 and R22 list for it: VF as a flag only by `8xy4`..`8xy7`,
`8xyE` and `Dxyn`. -/
def Obligations.RegistersWrittenOnlyAsListed : Prop :=
  ∀ (i : Instr) (s t : State) (r : RegIx), exec i s = .next t → mayWrite i r = false → t.reg r = s.reg r

/-- I is written only by `Annn`, `Fx1E` and `Fx29` (R24); DT only by `Fx15` and ST only by `Fx18` (R32). -/
def Obligations.SpecialRegistersWrittenOnlyAsListed : Prop :=
  ∀ (i : Instr) (s t : State), exec i s = .next t →
    ((∀ nnn, i ≠ .ldI nnn) → (∀ x, i ≠ .addI x) → (∀ x, i ≠ .ldF x) → t.I = s.I) ∧
    ((∀ x, i ≠ .ldDTVx x) → t.DT = s.DT) ∧ ((∀ x, i ≠ .ldSTVx x) → t.ST = s.ST)

/-! ## Control transfer -/

/-- RET pops the return address into PC, leaves every slot as it is, and on an empty stack raises StackFault(underflow)
with nothing changed (R110; the kept slot is decision D4's, the record D29's, the unchanged state D9's). -/
def Obligations.ReturnPopsIntoPC : Prop :=
  ∀ s : State,
    (∀ h : 0 < s.SP.val, ∃ t, exec .ret s = .next t ∧ t.PC = s.STACK.get ⟨s.SP.val - 1, by omega⟩ ∧
      t.SP.val + 1 = s.SP.val ∧ t = { s with PC := t.PC, SP := t.SP }) ∧
    (s.SP = 0 → exec .ret s = .next (haltedWith s
      { kind := .stackFault .underflow, pc := s.PC, raw := some 0x00EE }))

/-- CALL pushes pc0 + 2 and jumps; the 17th frame raises StackFault(overflow) with nothing changed (R113, R28; decisions D3,
D4, D9, D29). -/
def Obligations.CallPushesNextAddress : Prop :=
  ∀ (nnn : Addr12) (s : State),
    (s.SP.val < 16 → ∃ t, exec (.call nnn) s = .next t ∧ t.PC.toNat = nnn.toNat ∧ t.SP.val = s.SP.val + 1 ∧
      (∀ j : Fin 16, t.STACK.get j = if j.val = s.SP.val then s.PC + 2 else s.STACK.get j) ∧
      t = { s with PC := t.PC, SP := t.SP, STACK := t.STACK }) ∧
    (s.SP.val = 16 → exec (.call nnn) s = .next (haltedWith s
      { kind := .stackFault .overflow, pc := s.PC, raw := some (wordNNN 0x2 nnn) }))

/-- CALL followed by RET restores PC to the instruction after the CALL, and the depth, for any target and any depth below
16 (R116). -/
def Obligations.CallThenReturnComesBack : Prop :=
  ∀ (nnn : Addr12) (s : State), s.SP.val < 16 →
    ∃ t u, exec (.call nnn) s = .next t ∧ exec .ret t = .next u ∧ u.PC = s.PC + 2 ∧
      u = { s with PC := u.PC, STACK := u.STACK } ∧ ∀ j : Fin 16, j.val ≠ s.SP.val → u.STACK.get j = s.STACK.get j

/-- JP sets PC to nnn and changes nothing else (R112: PC = nnn). -/
def Obligations.JumpSetsPC : Prop :=
  ∀ (nnn : Addr12) (s : State), ∃ t, exec (.jp nnn) s = .next t ∧ t.PC.toNat = nnn.toNat ∧ t = { s with PC := t.PC }

/-- SYS jumps when `sys_jump` is true and only advances PC when it is false (R111, decision D2); JP V0 adds V0 to nnn with no
reduction (R114, decision D1). -/
def Obligations.SysAndIndexedJump : Prop :=
  ∀ (nnn : Addr12) (s : State),
    (∃ t, exec (.sys nnn) s = .next t ∧ (s.sysJump = true → t.PC.toNat = nnn.toNat) ∧
      (s.sysJump = false → t.PC = s.PC + 2) ∧ t = { s with PC := t.PC }) ∧
    (∃ t, exec (.jpV0 nnn) s = .next t ∧ t.PC.toNat = (s.reg RegIx.V0).toNat + nnn.toNat ∧ t = { s with PC := t.PC })

/-! ## Skips -/

/-- The four register skips: PC + 4 when the condition holds, PC + 2 when it fails, and nothing else changes (R131, R132; R133
and R134 with the nibble N of decision D13 already dropped by the decoder). -/
def Obligations.RegisterSkips : Prop :=
  ∀ (x y : RegIx) (kk : Byte) (s : State),
    (∃ t, exec (.seImm x kk) s = .next t ∧ (s.reg x = kk → t.PC = s.PC + 4) ∧ (s.reg x ≠ kk → t.PC = s.PC + 2) ∧
      t = { s with PC := t.PC }) ∧
    (∃ t, exec (.sneImm x kk) s = .next t ∧ (s.reg x ≠ kk → t.PC = s.PC + 4) ∧ (s.reg x = kk → t.PC = s.PC + 2) ∧
      t = { s with PC := t.PC }) ∧
    (∃ t, exec (.seReg x y) s = .next t ∧ (s.reg x = s.reg y → t.PC = s.PC + 4) ∧
      (s.reg x ≠ s.reg y → t.PC = s.PC + 2) ∧ t = { s with PC := t.PC }) ∧
    (∃ t, exec (.sneReg x y) s = .next t ∧ (s.reg x ≠ s.reg y → t.PC = s.PC + 4) ∧
      (s.reg x = s.reg y → t.PC = s.PC + 2) ∧ t = { s with PC := t.PC })

/-- The key skips: for a key value 0..15 the answer is whether the key is held, and one `is_key_pressed` request is sent; above
15 the answer is a free Boolean and no request is sent (decision D12). SKP skips when it is true, SKNP when it is false
(R135, R136). -/
def Obligations.KeySkips : Prop :=
  ∀ (x : RegIx) (s : State), ∃ (p : Bool) (t u : State),
    exec (.skp x) s = .next t ∧ exec (.sknp x) s = .next u ∧
    t.PC = (if p then s.PC + 4 else s.PC + 2) ∧ u.PC = (if p then s.PC + 2 else s.PC + 4) ∧
    ((s.reg x).toNat ≤ 15 → p = s.adapter.keys.getLsbD (s.reg x).toNat ∧
      t = { s with PC := t.PC, adapter := { s.adapter with
              sent := s.adapter.sent ++ [.isKeyPressed (BitVec.ofNat 4 (s.reg x).toNat)] } } ∧
      u = { t with PC := u.PC }) ∧
    (15 < (s.reg x).toNat → p = Config.pollAbove15 s.draws ∧ t = { s with PC := t.PC, draws := s.draws + 1 } ∧
      u = { t with PC := u.PC })

/-! ## Loads and ALU -/

/-- LD Vx,kk and ADD Vx,kk: the result, no flag (VF only as the destination), nothing else (R151, R152). -/
def Obligations.ImmediateLoadAndAdd : Prop :=
  ∀ (x : RegIx) (kk : Byte) (s : State),
    (∃ t, exec (.ldImm x kk) s = .next t ∧ (∀ r, t.reg r = if r = x then kk else s.reg r) ∧ t.PC = s.PC + 2 ∧
      t = { s with V := t.V, PC := t.PC }) ∧
    (∃ t, exec (.addImm x kk) s = .next t ∧ (t.reg x).toNat = ((s.reg x).toNat + kk.toNat) % 256 ∧
      (∀ r, r ≠ x → t.reg r = s.reg r) ∧ t.PC = s.PC + 2 ∧ t = { s with V := t.V, PC := t.PC })

/-- LD, OR, AND and XOR of two registers: the result, VF kept unless it is the destination (R153 to R156, decision D6). -/
def Obligations.CopyAndBitwise : Prop :=
  ∀ (x y : RegIx) (s : State) (i : Instr) (v : Byte),
    (i, v) ∈ [(Instr.ldReg x y, s.reg y), (Instr.orReg x y, s.reg x ||| s.reg y),
              (Instr.andReg x y, s.reg x &&& s.reg y), (Instr.xorReg x y, s.reg x ^^^ s.reg y)] →
    ∃ t, exec i s = .next t ∧ (∀ r, t.reg r = if r = x then v else s.reg r) ∧ t.PC = s.PC + 2 ∧
      t = { s with V := t.V, PC := t.PC }

/-- ADD Vx,Vy: VF is the carry, whatever x is (written last); any other x gets the sum modulo 256 (R158; the order when x or y
is F is decision D5's). -/
def Obligations.AddWithCarry : Prop :=
  ∀ (x y : RegIx) (s : State), ∃ t, exec (.addReg x y) s = .next t ∧
    t.reg RegIx.VF = (if 256 ≤ (s.reg x).toNat + (s.reg y).toNat then 1 else 0) ∧
    (x ≠ RegIx.VF → (t.reg x).toNat = ((s.reg x).toNat + (s.reg y).toNat) % 256) ∧
    (∀ r, r ≠ x → r ≠ RegIx.VF → t.reg r = s.reg r) ∧ t.PC = s.PC + 2 ∧ t = { s with V := t.V, PC := t.PC }

/-- SUB and SUBN: VF is 1 exactly when the minuend is strictly greater, whatever x is; any other x gets the difference modulo
256 (R159, R161; the order when x or y is F is decision D5's). -/
def Obligations.SubtractBothWays : Prop :=
  ∀ (x y : RegIx) (s : State),
    (∃ t, exec (.subReg x y) s = .next t ∧ t.reg RegIx.VF = (if s.reg y < s.reg x then 1 else 0) ∧
      (x ≠ RegIx.VF → t.reg x = s.reg x - s.reg y) ∧
      (∀ r, r ≠ x → r ≠ RegIx.VF → t.reg r = s.reg r) ∧ t.PC = s.PC + 2 ∧ t = { s with V := t.V, PC := t.PC }) ∧
    (∃ t, exec (.subnReg x y) s = .next t ∧ t.reg RegIx.VF = (if s.reg x < s.reg y then 1 else 0) ∧
      (x ≠ RegIx.VF → t.reg x = s.reg y - s.reg x) ∧
      (∀ r, r ≠ x → r ≠ RegIx.VF → t.reg r = s.reg r) ∧ t.PC = s.PC + 2 ∧ t = { s with V := t.V, PC := t.PC })

/-- SHR and SHL shift Vy into Vx; VF is the bit shifted out of Vy, whatever x is (R160, R162; the order when x or y is F is
decision D5's). -/
def Obligations.ShiftsOfSourceRegister : Prop :=
  ∀ (x y : RegIx) (s : State),
    (∃ t, exec (.shrReg x y) s = .next t ∧ (t.reg RegIx.VF).toNat = (s.reg y).toNat % 2 ∧
      (x ≠ RegIx.VF → (t.reg x).toNat = (s.reg y).toNat / 2) ∧
      (∀ r, r ≠ x → r ≠ RegIx.VF → t.reg r = s.reg r) ∧ t.PC = s.PC + 2 ∧ t = { s with V := t.V, PC := t.PC }) ∧
    (∃ t, exec (.shlReg x y) s = .next t ∧ (t.reg RegIx.VF).toNat = (s.reg y).toNat / 128 ∧
      (x ≠ RegIx.VF → (t.reg x).toNat = 2 * (s.reg y).toNat % 256) ∧
      (∀ r, r ≠ x → r ≠ RegIx.VF → t.reg r = s.reg r) ∧ t.PC = s.PC + 2 ∧ t = { s with V := t.V, PC := t.PC })

/-- RND writes a free byte masked by kk, and the next draw is another (R163; decision D21; log 12). -/
def Obligations.RandomIsMaskedFreeByte : Prop :=
  ∀ (x : RegIx) (kk : Byte) (s : State), ∃ t, exec (.rnd x kk) s = .next t ∧
    (∀ r, t.reg r = if r = x then Config.randomByte s.draws &&& kk else s.reg r) ∧ t.draws = s.draws + 1 ∧
    (kk = 0 → t.reg x = 0) ∧ t.PC = s.PC + 2 ∧ t = { s with V := t.V, PC := t.PC, draws := t.draws }

/-! ## Index register and memory transfers -/

/-- LD I,nnn sets I to nnn and changes only I and PC (R180). -/
def Obligations.LoadIndex : Prop :=
  ∀ (nnn : Addr12) (s : State), ∃ t, exec (.ldI nnn) s = .next t ∧ t.I.toNat = nnn.toNat ∧ t.PC = s.PC + 2 ∧
    t = { s with I := t.I, PC := t.PC }

/-- ADD I,Vx adds modulo 65536 with no flag (R181; decision D7); LD F,Vx points I at 5 * d for a digit d and at a free value
above 15 (R182; decision D10; log 12). -/
def Obligations.AddIndexAndFontAddress : Prop :=
  ∀ (x : RegIx) (s : State),
    (∃ t, exec (.addI x) s = .next t ∧ t.I.toNat = (s.I.toNat + (s.reg x).toNat) % 65536 ∧ t.PC = s.PC + 2 ∧
      t = { s with I := t.I, PC := t.PC }) ∧
    ∃ t, exec (.ldF x) s = .next t ∧ t.PC = s.PC + 2 ∧
      ((s.reg x).toNat ≤ 15 → t.I.toNat = 5 * (s.reg x).toNat ∧ t = { s with I := t.I, PC := t.PC }) ∧
      (15 < (s.reg x).toNat → t.I = Config.fontAddressAbove15 s.draws ∧
        t = { s with I := t.I, PC := t.PC, draws := s.draws + 1 })

/-- LD B,Vx stores the hundreds, tens and units at I, I+1, I+2 and changes no other byte and not I; when I + 2 is out of range
it raises BoundsFault at the lowest out-of-range address with nothing changed (R183; decisions D8, D9, D29). -/
def Obligations.StoreDecimalDigits : Prop :=
  ∀ (x : RegIx) (s : State),
    (s.I.toNat + 2 ≤ 0xFFF → ∃ t, exec (.ldB x) s = .next t ∧
      (t.MEM.read s.I.toNat).toNat = (s.reg x).toNat / 100 ∧
      (t.MEM.read (s.I.toNat + 1)).toNat = (s.reg x).toNat / 10 % 10 ∧
      (t.MEM.read (s.I.toNat + 2)).toNat = (s.reg x).toNat % 10 ∧
      (∀ a, a < s.I.toNat ∨ s.I.toNat + 2 < a → t.MEM.read a = s.MEM.read a) ∧ t.PC = s.PC + 2 ∧
      t = { s with MEM := t.MEM, PC := t.PC }) ∧
    (0xFFF < s.I.toNat + 2 → exec (.ldB x) s = .next (haltedWith s
      { kind := .boundsFault (max s.I.toNat 0x1000), pc := s.PC, raw := some (wordXKK 0xF x 0x33) }))

/-- LD [I],Vx stores V0..Vx at I..I+x and changes no other byte and not I; when I + x is out of range it raises BoundsFault with
nothing changed (R184; decisions D8, D9, D29). -/
def Obligations.StoreRegisters : Prop :=
  ∀ (x : RegIx) (s : State),
    (s.I.toNat + x.val ≤ 0xFFF → ∃ t, exec (.ldMemStore x) s = .next t ∧
      (∀ r : RegIx, r ≤ x → t.MEM.read (s.I.toNat + r.val) = s.reg r) ∧
      (∀ a, a < s.I.toNat ∨ s.I.toNat + x.val < a → t.MEM.read a = s.MEM.read a) ∧ t.PC = s.PC + 2 ∧
      t = { s with MEM := t.MEM, PC := t.PC }) ∧
    (0xFFF < s.I.toNat + x.val → exec (.ldMemStore x) s = .next (haltedWith s
      { kind := .boundsFault (max s.I.toNat 0x1000), pc := s.PC, raw := some (wordXKK 0xF x 0x55) }))

/-- LD Vx,[I] loads V0..Vx from I..I+x and changes no other register and not I; when I + x is out of range it raises
BoundsFault with nothing changed (R185; decisions D8, D9, D29). -/
def Obligations.LoadRegisters : Prop :=
  ∀ (x : RegIx) (s : State),
    (s.I.toNat + x.val ≤ 0xFFF → ∃ t, exec (.ldMemLoad x) s = .next t ∧
      (∀ r : RegIx, t.reg r = if r ≤ x then s.MEM.read (s.I.toNat + r.val) else s.reg r) ∧ t.PC = s.PC + 2 ∧
      t = { s with V := t.V, PC := t.PC }) ∧
    (0xFFF < s.I.toNat + x.val → exec (.ldMemLoad x) s = .next (haltedWith s
      { kind := .boundsFault (max s.I.toNat 0x1000), pc := s.PC, raw := some (wordXKK 0xF x 0x65) }))

/-- `Fx65` and then `Fx55` with the same x and I: V0..Vx hold memory's bytes and every byte of memory is as before (R186). -/
def Obligations.LoadThenStoreRoundTrip : Prop :=
  ∀ (x : RegIx) (s : State), s.I.toNat + x.val ≤ 0xFFF →
    ∃ t u, exec (.ldMemLoad x) s = .next t ∧ exec (.ldMemStore x) t = .next u ∧ u.I = s.I ∧
      (∀ r : RegIx, r ≤ x → u.reg r = s.MEM.read (s.I.toNat + r.val)) ∧ ∀ a, u.MEM.read a = s.MEM.read a

/-! ## Timer instructions -/

/-- `Fx07` copies DT into Vx and `Fx15` copies Vx into DT; nothing else changes (R200, R201). -/
def Obligations.DelayTimerReadAndSet : Prop :=
  ∀ (x : RegIx) (s : State),
    (∃ t, exec (.ldVxDT x) s = .next t ∧ (∀ r, t.reg r = if r = x then s.DT else s.reg r) ∧ t.PC = s.PC + 2 ∧
      t = { s with V := t.V, PC := t.PC }) ∧
    (∃ t, exec (.ldDTVx x) s = .next t ∧ t.DT = s.reg x ∧ t.PC = s.PC + 2 ∧ t = { s with DT := t.DT, PC := t.PC })

/-- `Fx18` copies Vx into ST, and sends `play_tone(Vx)` exactly when ST was 0 and Vx is not (R202; decision D19). -/
def Obligations.SoundTimerSetAndTone : Prop :=
  ∀ (x : RegIx) (s : State), ∃ t, exec (.ldSTVx x) s = .next t ∧ t.ST = s.reg x ∧ t.PC = s.PC + 2 ∧
    (s.ST = 0 ∧ s.reg x ≠ 0 → t.adapter.sent = s.adapter.sent ++ [.playTone (s.reg x)]) ∧
    (¬(s.ST = 0 ∧ s.reg x ≠ 0) → t.adapter.sent = s.adapter.sent) ∧
    t = { s with ST := t.ST, PC := t.PC, adapter := { s.adapter with sent := t.adapter.sent } }

/-! ## Display -/

/-- CLS sends one `clear_screen()`, turns every pixel off, and changes no core state but PC (R210, R252). -/
def Obligations.ClearScreenTurnsAllPixelsOff : Prop :=
  ∀ s : State, ∃ t, exec .cls s = .next t ∧ (∀ c r, t.adapter.fb.pixel c r = false) ∧
    t.adapter.sent = s.adapter.sent ++ [.clearScreen] ∧ t.adapter.keys = s.adapter.keys ∧ t.PC = s.PC + 2 ∧
    t = { s with PC := t.PC, adapter := t.adapter }

/-- `draw_sprite(b, x, y)` flips exactly the pixels of row y mod 32 whose column is x + j mod 64 for a j in 0..7 with bit 7 - j of
b set (R213, R253; the wrap per pixel and the bit order are decision D18's, log 21). -/
def Obligations.DrawRowFlipsSpritePixels : Prop :=
  ∀ (fb : Framebuffer) (b : Byte) (x y c r : Nat), c < 64 → r < 32 →
    ((fb.drawRow b x y).pixel c r = !fb.pixel c r ↔
      r = y % 32 ∧ ∃ j, j < 8 ∧ c = (x + j) % 64 ∧ b.getLsbD (7 - j) = true)

/-- `check_collision(b, x, y)` is true exactly when some j in 0..7 has bit 7 - j of b set and FB[(x + j) mod 64][y mod 32] set, and
it does not change FB (R254; the wrap per pixel and the bit order are decision D18's, log 21). -/
def Obligations.CheckCollisionFindsSetPixel : Prop :=
  ∀ (a : Adapter) (b x : Byte) (y : BitVec 9),
    ((a.checkCollision b x y).1 = true ↔
      ∃ j, j < 8 ∧ b.getLsbD (7 - j) = true ∧ a.fb.pixel ((x.toNat + j) % 64) (y.toNat % 32) = true) ∧
    (a.checkCollision b x y).2.fb = a.fb

/-- A collision means that drawing the row turns off at least one pixel that was on (R212). -/
def Obligations.CollisionMeansPixelTurnedOff : Prop :=
  ∀ (fb : Framebuffer) (b : Byte) (x y : Nat),
    (fb.collides b x y = true ↔
      ∃ c r, c < 64 ∧ r < 32 ∧ fb.pixel c r = true ∧ (fb.drawRow b x y).pixel c r = false)

/-- DRW draws its n rows in order, a check and a draw each, at the coordinates from before the instruction; VF is 1 if some row
collided and 0 otherwise, 0 for n = 0; nothing else changes. When a row's byte is out of range it raises BoundsFault with
nothing changed (R211, R212; decisions D9, D18, D29; the bit order is log 21's). -/
def Obligations.DrawSpriteRowsAndCollision : Prop :=
  ∀ (x y : RegIx) (n : BitVec 4) (s : State),
    (n = 0 ∨ s.I.toNat + n.toNat - 1 ≤ 0xFFF → ∃ t, exec (.drw x y n) s = .next t ∧
      t.adapter.fb = fbAfterRows s x y n.toNat ∧
      t.adapter.sent = s.adapter.sent ++ (List.range n.toNat).flatMap (rowRequests s x y) ∧
      t.adapter.keys = s.adapter.keys ∧
      ((∃ r, r < n.toNat ∧ rowCollides s x y r) → t.reg RegIx.VF = 1) ∧
      ((∀ r, r < n.toNat → ¬rowCollides s x y r) → t.reg RegIx.VF = 0) ∧
      (∀ r, r ≠ RegIx.VF → t.reg r = s.reg r) ∧ t.PC = s.PC + 2 ∧
      t = { s with V := t.V, PC := t.PC, adapter := t.adapter }) ∧
    (n ≠ 0 → 0xFFF < s.I.toNat + n.toNat - 1 → exec (.drw x y n) s = .next (haltedWith s
      { kind := .boundsFault (max s.I.toNat 0x1000), pc := s.PC, raw := some (wordXYN 0xD x y n) }))

/-- Drawing a row twice at the same place restores the framebuffer, and the second draw collides exactly when the row's byte
has a pixel to turn off again: on a blank row a nonzero byte draws without a collision and is erased with one (E7, R212,
R253; the bit order is decision D18's, log 21). -/
def Obligations.DrawTwiceRestoresFramebuffer : Prop :=
  ∀ (fb : Framebuffer) (b : Byte) (x y : Nat),
    (fb.drawRow b x y).drawRow b x y = fb ∧
    ((∀ c, fb.pixel c y = false) → b ≠ 0 →
      fb.collides b x y = false ∧ (fb.drawRow b x y).collides b x y = true)
end

