-- ==== Sys2Proof/Laws/Decode.lean ====
section
/-! SUPPORT. The fields of a word as numbers, and the fields of the words the formats build. -/

namespace Sys2Proof

theorem toNat_fieldF (w : Word) : (fieldF w).toNat = w.toNat / 4096 := by
  have := w.isLt; simp [fieldF, Nat.shiftRight_eq_div_pow]; omega

theorem val_fieldX (w : Word) : (fieldX w).val = w.toNat / 256 % 16 := by
  simp [fieldX, Nat.shiftRight_eq_div_pow]

theorem val_fieldY (w : Word) : (fieldY w).val = w.toNat / 16 % 16 := by
  simp [fieldY, Nat.shiftRight_eq_div_pow]

theorem toNat_fieldN (w : Word) : (fieldN w).toNat = w.toNat % 16 := by simp [fieldN]

theorem toNat_fieldKK (w : Word) : (fieldKK w).toNat = w.toNat % 256 := by simp [fieldKK]

theorem toNat_fieldNNN (w : Word) : (fieldNNN w).toNat = w.toNat % 4096 := by simp [fieldNNN]

theorem toNat_append_add {n m : Nat} (a : BitVec n) (b : BitVec m) : (a ++ b).toNat = a.toNat * 2 ^ m + b.toNat := by
  rw [BitVec.toNat_append, Nat.shiftLeft_eq, Nat.mul_comm, Nat.two_pow_add_eq_or_of_lt b.isLt]

theorem toNat_wordNNN (f : BitVec 4) (nnn : Addr12) : (wordNNN f nnn).toNat = f.toNat * 4096 + nnn.toNat :=
  toNat_append_add f nnn

theorem toNat_wordXKK (f : BitVec 4) (x : RegIx) (kk : Byte) :
    (wordXKK f x kk).toNat = f.toNat * 4096 + x.val * 256 + kk.toNat := by
  have hx : (BitVec.ofFin (w := 4) x).toNat = x.val := rfl
  refine (toNat_append_add (f ++ BitVec.ofFin (w := 4) x) kk).trans ?_
  rw [toNat_append_add, hx]; omega

theorem toNat_wordXYN (f : BitVec 4) (x y : RegIx) (n : BitVec 4) :
    (wordXYN f x y n).toNat = f.toNat * 4096 + x.val * 256 + y.val * 16 + n.toNat := by
  have hx : (BitVec.ofFin (w := 4) x).toNat = x.val := rfl
  have hy : (BitVec.ofFin (w := 4) y).toNat = y.val := rfl
  refine (toNat_append_add (f ++ BitVec.ofFin (w := 4) x ++ BitVec.ofFin (w := 4) y) n).trans ?_
  rw [toNat_append_add, toNat_append_add, hx, hy]; omega

/-- A word is its family and its address field (R84, format NNN). -/
theorem eq_wordNNN (w : Word) : w = wordNNN (fieldF w) (fieldNNN w) := by
  apply BitVec.eq_of_toNat_eq; rw [toNat_wordNNN, toNat_fieldF, toNat_fieldNNN]; omega

/-- A word is its family, register and immediate (R84, formats XKK and XF). -/
theorem eq_wordXKK (w : Word) : w = wordXKK (fieldF w) (fieldX w) (fieldKK w) := by
  apply BitVec.eq_of_toNat_eq; rw [toNat_wordXKK, toNat_fieldF, val_fieldX, toNat_fieldKK]; omega

/-- A word is its four nibbles (R84, format XYN). -/
theorem eq_wordXYN (w : Word) : w = wordXYN (fieldF w) (fieldX w) (fieldY w) (fieldN w) := by
  apply BitVec.eq_of_toNat_eq; rw [toNat_wordXYN, toNat_fieldF, val_fieldX, val_fieldY, toNat_fieldN]; omega

@[simp] theorem fieldF_wordNNN (f : BitVec 4) (nnn : Addr12) : fieldF (wordNNN f nnn) = f := by
  apply BitVec.eq_of_toNat_eq; rw [toNat_fieldF, toNat_wordNNN]; have := nnn.isLt; omega

@[simp] theorem fieldNNN_wordNNN (f : BitVec 4) (nnn : Addr12) : fieldNNN (wordNNN f nnn) = nnn := by
  apply BitVec.eq_of_toNat_eq; rw [toNat_fieldNNN, toNat_wordNNN]; have := nnn.isLt; omega

@[simp] theorem fieldF_wordXKK (f : BitVec 4) (x : RegIx) (kk : Byte) : fieldF (wordXKK f x kk) = f := by
  apply BitVec.eq_of_toNat_eq; rw [toNat_fieldF, toNat_wordXKK]; have := x.isLt; have := kk.isLt; omega

@[simp] theorem fieldX_wordXKK (f : BitVec 4) (x : RegIx) (kk : Byte) : fieldX (wordXKK f x kk) = x := by
  apply Fin.ext; rw [val_fieldX, toNat_wordXKK]; have := x.isLt; have := kk.isLt; omega

@[simp] theorem fieldKK_wordXKK (f : BitVec 4) (x : RegIx) (kk : Byte) : fieldKK (wordXKK f x kk) = kk := by
  apply BitVec.eq_of_toNat_eq; rw [toNat_fieldKK, toNat_wordXKK]; have := x.isLt; have := kk.isLt; omega

@[simp] theorem fieldF_wordXYN (f : BitVec 4) (x y : RegIx) (n : BitVec 4) : fieldF (wordXYN f x y n) = f := by
  apply BitVec.eq_of_toNat_eq; rw [toNat_fieldF, toNat_wordXYN]
  have := x.isLt; have := y.isLt; have := n.isLt; omega

@[simp] theorem fieldX_wordXYN (f : BitVec 4) (x y : RegIx) (n : BitVec 4) : fieldX (wordXYN f x y n) = x := by
  apply Fin.ext; rw [val_fieldX, toNat_wordXYN]; have := x.isLt; have := y.isLt; have := n.isLt; omega

@[simp] theorem fieldY_wordXYN (f : BitVec 4) (x y : RegIx) (n : BitVec 4) : fieldY (wordXYN f x y n) = y := by
  apply Fin.ext; rw [val_fieldY, toNat_wordXYN]; have := x.isLt; have := y.isLt; have := n.isLt; omega

@[simp] theorem fieldN_wordXYN (f : BitVec 4) (x y : RegIx) (n : BitVec 4) : fieldN (wordXYN f x y n) = n := by
  apply BitVec.eq_of_toNat_eq; rw [toNat_fieldN, toNat_wordXYN]; have := x.isLt; have := y.isLt; have := n.isLt; omega

/-- The two bytes of a word make the word (R53). -/
@[simp] theorem wordOfBytes_bytes (w : Word) : wordOfBytes (highByte w) (lowByte w) = w := by
  apply BitVec.eq_of_toNat_eq
  refine (toNat_append_add _ _).trans ?_
  have := w.isLt
  simp [highByte, lowByte, Nat.shiftRight_eq_div_pow]; omega

end Sys2Proof
end

