-- ==== Sys2Proof/Laws/Memory.lean ====
section
/-! SUPPORT. The laws of the memory: a read after a write, the canonical form of every operation's result, byte runs, and the
memory built at construction. -/

namespace Sys2Proof.Machine

theorem Memory.read_unlist (m : Memory) (a b : Nat) :
    (m.unlist a).read b = if b = a then Memory.background a else m.read b := by
  induction m with
  | nil => simp only [Memory.unlist, List.filter_nil, Memory.read]; split <;> simp_all
  | cons c m ih =>
    by_cases hc : c.1 = a
    · have : Memory.unlist (c :: m) a = Memory.unlist m a := by simp [Memory.unlist, hc]
      rw [this, ih]; simp only [Memory.read, hc]; split <;> simp_all
    · have : Memory.unlist (c :: m) a = c :: Memory.unlist m a := by simp [Memory.unlist, hc]
      rw [this]; simp only [Memory.read, ih]; grind

theorem Memory.read_list (m : Memory) (a b : Nat) (v : Byte) (h : ∀ c ∈ m, c.1 ≠ a) :
    (m.list a v).read b = if b = a then v else m.read b := by
  induction m with
  | nil => simp [Memory.list, Memory.read]
  | cons c m ih =>
    have hc : c.1 ≠ a := h c (by simp)
    have ih := ih (fun d hd => h d (by simp [hd]))
    unfold Memory.list; split
    · simp [Memory.read]
    · simp only [Memory.read, ih]; grind

theorem Memory.unlist_ne (m : Memory) (a : Nat) : ∀ c ∈ m.unlist a, c.1 ≠ a := by
  intro c hc; simpa using (List.mem_filter.mp hc).2

/-- A read after a write: the value written at that address, and every other address as before (R52, R63). -/
@[simp] theorem Memory.read_write (m : Memory) (a b : Nat) (v : Byte) :
    (m.write a v).read b = if b = a then v else m.read b := by
  unfold Memory.write; split
  · rename_i h; rw [Memory.read_unlist, h]
  · rw [Memory.read_list _ _ _ _ (m.unlist_ne a), Memory.read_unlist]; grind

theorem Memory.wf_unlist {m : Memory} (h : m.wf) (a : Nat) : (m.unlist a).wf :=
  ⟨h.1.filter _, fun c hc => h.2 c (List.mem_filter.mp hc).1⟩

theorem Memory.mem_list (m : Memory) (a : Nat) (v : Byte) (c : Host.Cell) :
    c ∈ m.list a v ↔ c = (a, v) ∨ c ∈ m := by
  induction m with
  | nil => simp [Memory.list]
  | cons d m ih => unfold Memory.list; split <;> simp [ih] ; tauto

theorem Memory.wf_list {m : Memory} (h : m.wf) (a : Nat) (v : Byte) (ha : a < Config.memSize)
    (hv : v ≠ Memory.background a) (hn : ∀ c ∈ m, c.1 ≠ a) : (m.list a v).wf := by
  constructor
  · obtain ⟨hp, -⟩ := h
    induction m with
    | nil => simp [Memory.list]
    | cons c m ih =>
      have hp' := List.pairwise_cons.mp hp
      have hc : c.1 ≠ a := hn c (by simp)
      unfold Memory.list; split
      · rename_i hlt
        refine List.pairwise_cons.mpr ⟨fun d hd => ?_, hp⟩
        rcases List.mem_cons.mp hd with rfl | hd
        · exact hlt
        · exact Nat.lt_trans hlt (hp'.1 d hd)
      · refine List.pairwise_cons.mpr ⟨fun d hd => ?_, ih (fun d hd => hn d (by simp [hd])) hp'.2⟩
        rcases (Memory.mem_list m a v d).mp hd with rfl | hd
        · simp only; omega
        · exact hp'.1 d hd
  · intro c hc
    rcases (Memory.mem_list m a v c).mp hc with rfl | hc
    · exact ⟨ha, hv⟩
    · exact h.2 c hc

/-- A write to an existing address keeps the canonical form. -/
theorem Memory.wf_write {m : Memory} (h : m.wf) (a : Nat) (v : Byte) (ha : a < Config.memSize) : (m.write a v).wf := by
  unfold Memory.write; split
  · exact Memory.wf_unlist h a
  · rename_i hv; exact Memory.wf_list (Memory.wf_unlist h a) a v ha hv (m.unlist_ne a)

/-- Byte writes within memory keep the canonical form. -/
theorem Memory.wf_writeBytes {m : Memory} (h : m.wf) (a : Nat) (vs : List Byte) (ha : a + vs.length ≤ Config.memSize) :
    (m.writeBytes a vs).wf := by
  induction vs generalizing m a with
  | nil => exact h
  | cons v vs ih =>
    simp only [List.length_cons] at ha
    exact ih (Memory.wf_write h a v (by omega)) (a + 1) (by omega)

/-- A read after byte writes: the bytes written, at their addresses; every other address as before. -/
theorem Memory.read_writeBytes (m : Memory) (a b : Nat) (vs : List Byte) :
    (m.writeBytes a vs).read b = if h : a ≤ b ∧ b - a < vs.length then vs[b - a]'h.2 else m.read b := by
  induction vs generalizing m a with
  | nil => simp [Memory.writeBytes]
  | cons v vs ih =>
    simp only [Memory.writeBytes, ih, Memory.read_write, List.length_cons]
    by_cases h1 : a + 1 ≤ b ∧ b - (a + 1) < vs.length
    · have h2 : a ≤ b ∧ b - a < vs.length + 1 := by omega
      rw [dif_pos h1, dif_pos h2]
      have : b - a = (b - (a + 1)) + 1 := by omega
      simp [this]
    · rw [dif_neg h1]
      by_cases h3 : b = a
      · subst h3; simp
      · rw [if_neg h3, dif_neg (by omega)]

@[simp] theorem Memory.length_readBytes (m : Memory) (a n : Nat) : (m.readBytes a n).length = n := by
  simp [Memory.readBytes]

@[simp] theorem Memory.getElem_readBytes (m : Memory) (a n k : Nat) (h : k < (m.readBytes a n).length) :
    (m.readBytes a n)[k] = m.read (a + k) := by
  simp [Memory.readBytes]

theorem Memory.readBytes_succ (m : Memory) (a n : Nat) :
    m.readBytes a (n + 1) = m.read a :: m.readBytes (a + 1) n := by
  simp only [Memory.readBytes, List.range_succ_eq_map, List.map_cons, List.map_map, Nat.add_zero]
  congr 1; apply List.map_congr_left; intro k _; simp only [Function.comp]; congr 1; omega

/-- Empty memory reads as the background. -/
theorem Memory.read_nil (a : Nat) : Memory.read [] a = Memory.background a := rfl

theorem Memory.read_of_not_mem (m : Memory) (a : Nat) (h : ∀ c ∈ m, c.1 ≠ a) : m.read a = Memory.background a := by
  induction m with
  | nil => rfl
  | cons c m ih =>
    have : a ≠ c.1 := fun e => h c (by simp) e.symm
    simp only [Memory.read, if_neg this]; exact ih (fun d hd => h d (by simp [hd]))

/-- The byte at each address of a tabulated memory. -/
theorem Memory.read_tabulate (f : Nat → Byte) (a : Nat) (h : a < Config.memSize) : (Memory.tabulate f).read a = f a := by
  have key : ∀ l : List Nat, a ∈ l →
      Memory.read (l.filterMap fun a => if f a = Memory.background a then none else some (a, f a)) a = f a := by
    intro l; induction l with
    | nil => simp
    | cons b l ih =>
      intro hm
      by_cases hb : b = a
      · subst hb
        by_cases hf : f b = Memory.background b
        · simp only [List.filterMap_cons, hf, if_true]
          by_cases hl : b ∈ l
          · exact (ih hl).trans hf
          · refine Memory.read_of_not_mem _ _ fun c hc hcb => ?_
            obtain ⟨d, hd, hd'⟩ := List.mem_filterMap.mp hc
            split at hd'
            · cases hd'
            · cases hd'; exact hl (hcb ▸ hd)
        · simp [hf, Memory.read]
      · have hl : a ∈ l := by simpa [Ne.symm hb] using hm
        have := ih hl
        simp only [List.filterMap_cons]; split
        · exact this
        · rename_i h'; split at h'
          · cases h'
          · cases h'; simp only [Memory.read, if_neg (Ne.symm hb)]; exact this
  exact key _ (List.mem_range.mpr h)

/-- The memory built at construction has the canonical form. -/
theorem Memory.wf_tabulate (f : Nat → Byte) : (Memory.tabulate f).wf := by
  constructor
  · refine List.Pairwise.filterMap _ ?_ List.pairwise_lt_range
    intro a b hab c hc d hd
    split at hc <;> split at hd <;> simp_all
    rw [← hc, ← hd]; exact hab
  · intro c hc
    obtain ⟨a, ha, h⟩ := List.mem_filterMap.mp hc
    split at h
    · cases h
    · cases h; exact ⟨List.mem_range.mp ha, by assumption⟩

/-- Placing a fetch word keeps the canonical form. -/
theorem Memory.wf_placeWord {m : Memory} (h : m.wf) (a : Nat) (w : Word) : (m.placeWord a w).wf := by
  unfold Memory.placeWord; split
  · exact Memory.wf_writeBytes h a _ (by simp [bytesOfWord]; omega)
  · exact h

end Sys2Proof.Machine
end

