-- ==== Sys2Proof/Laws/State.lean ====
section
/-! SUPPORT. One lemma per field per update of the state, so that no later proof unfolds a record update. -/

namespace Sys2Proof.Machine

@[simp] theorem State.setReg_V (s : State) (x : RegIx) (v : Byte) : (s.setReg x v).V = s.V.set x.val v x.isLt := rfl
@[simp] theorem State.setReg_I (s : State) (x : RegIx) (v : Byte) : (s.setReg x v).I = s.I := rfl
@[simp] theorem State.setReg_PC (s : State) (x : RegIx) (v : Byte) : (s.setReg x v).PC = s.PC := rfl
@[simp] theorem State.setReg_SP (s : State) (x : RegIx) (v : Byte) : (s.setReg x v).SP = s.SP := rfl
@[simp] theorem State.setReg_STACK (s : State) (x : RegIx) (v : Byte) : (s.setReg x v).STACK = s.STACK := rfl
@[simp] theorem State.setReg_DT (s : State) (x : RegIx) (v : Byte) : (s.setReg x v).DT = s.DT := rfl
@[simp] theorem State.setReg_ST (s : State) (x : RegIx) (v : Byte) : (s.setReg x v).ST = s.ST := rfl
@[simp] theorem State.setReg_MEM (s : State) (x : RegIx) (v : Byte) : (s.setReg x v).MEM = s.MEM := rfl
@[simp] theorem State.setReg_run (s : State) (x : RegIx) (v : Byte) : (s.setReg x v).run = s.run := rfl
@[simp] theorem State.setReg_sysJump (s : State) (x : RegIx) (v : Byte) : (s.setReg x v).sysJump = s.sysJump := rfl
@[simp] theorem State.setReg_adapter (s : State) (x : RegIx) (v : Byte) : (s.setReg x v).adapter = s.adapter := rfl
@[simp] theorem State.setReg_host (s : State) (x : RegIx) (v : Byte) : (s.setReg x v).host = s.host := rfl
@[simp] theorem State.setReg_draws (s : State) (x : RegIx) (v : Byte) : (s.setReg x v).draws = s.draws := rfl
@[simp] theorem State.setReg_turn (s : State) (x : RegIx) (v : Byte) : (s.setReg x v).turn = s.turn := rfl

@[simp] theorem State.setI_V (s : State) (v : Word) : (s.setI v).V = s.V := rfl
@[simp] theorem State.setI_I (s : State) (v : Word) : (s.setI v).I = v := rfl
@[simp] theorem State.setI_PC (s : State) (v : Word) : (s.setI v).PC = s.PC := rfl
@[simp] theorem State.setI_SP (s : State) (v : Word) : (s.setI v).SP = s.SP := rfl
@[simp] theorem State.setI_STACK (s : State) (v : Word) : (s.setI v).STACK = s.STACK := rfl
@[simp] theorem State.setI_DT (s : State) (v : Word) : (s.setI v).DT = s.DT := rfl
@[simp] theorem State.setI_ST (s : State) (v : Word) : (s.setI v).ST = s.ST := rfl
@[simp] theorem State.setI_MEM (s : State) (v : Word) : (s.setI v).MEM = s.MEM := rfl
@[simp] theorem State.setI_run (s : State) (v : Word) : (s.setI v).run = s.run := rfl
@[simp] theorem State.setI_sysJump (s : State) (v : Word) : (s.setI v).sysJump = s.sysJump := rfl
@[simp] theorem State.setI_adapter (s : State) (v : Word) : (s.setI v).adapter = s.adapter := rfl
@[simp] theorem State.setI_host (s : State) (v : Word) : (s.setI v).host = s.host := rfl
@[simp] theorem State.setI_draws (s : State) (v : Word) : (s.setI v).draws = s.draws := rfl
@[simp] theorem State.setI_turn (s : State) (v : Word) : (s.setI v).turn = s.turn := rfl

@[simp] theorem State.setDT_V (s : State) (v : Byte) : (s.setDT v).V = s.V := rfl
@[simp] theorem State.setDT_I (s : State) (v : Byte) : (s.setDT v).I = s.I := rfl
@[simp] theorem State.setDT_PC (s : State) (v : Byte) : (s.setDT v).PC = s.PC := rfl
@[simp] theorem State.setDT_SP (s : State) (v : Byte) : (s.setDT v).SP = s.SP := rfl
@[simp] theorem State.setDT_STACK (s : State) (v : Byte) : (s.setDT v).STACK = s.STACK := rfl
@[simp] theorem State.setDT_DT (s : State) (v : Byte) : (s.setDT v).DT = v := rfl
@[simp] theorem State.setDT_ST (s : State) (v : Byte) : (s.setDT v).ST = s.ST := rfl
@[simp] theorem State.setDT_MEM (s : State) (v : Byte) : (s.setDT v).MEM = s.MEM := rfl
@[simp] theorem State.setDT_run (s : State) (v : Byte) : (s.setDT v).run = s.run := rfl
@[simp] theorem State.setDT_sysJump (s : State) (v : Byte) : (s.setDT v).sysJump = s.sysJump := rfl
@[simp] theorem State.setDT_adapter (s : State) (v : Byte) : (s.setDT v).adapter = s.adapter := rfl
@[simp] theorem State.setDT_host (s : State) (v : Byte) : (s.setDT v).host = s.host := rfl
@[simp] theorem State.setDT_draws (s : State) (v : Byte) : (s.setDT v).draws = s.draws := rfl
@[simp] theorem State.setDT_turn (s : State) (v : Byte) : (s.setDT v).turn = s.turn := rfl

@[simp] theorem State.goto_V (s : State) (p : Word) : (s.goto p).V = s.V := rfl
@[simp] theorem State.goto_I (s : State) (p : Word) : (s.goto p).I = s.I := rfl
@[simp] theorem State.goto_PC (s : State) (p : Word) : (s.goto p).PC = p := rfl
@[simp] theorem State.goto_SP (s : State) (p : Word) : (s.goto p).SP = s.SP := rfl
@[simp] theorem State.goto_STACK (s : State) (p : Word) : (s.goto p).STACK = s.STACK := rfl
@[simp] theorem State.goto_DT (s : State) (p : Word) : (s.goto p).DT = s.DT := rfl
@[simp] theorem State.goto_ST (s : State) (p : Word) : (s.goto p).ST = s.ST := rfl
@[simp] theorem State.goto_MEM (s : State) (p : Word) : (s.goto p).MEM = s.MEM := rfl
@[simp] theorem State.goto_run (s : State) (p : Word) : (s.goto p).run = s.run := rfl
@[simp] theorem State.goto_sysJump (s : State) (p : Word) : (s.goto p).sysJump = s.sysJump := rfl
@[simp] theorem State.goto_adapter (s : State) (p : Word) : (s.goto p).adapter = s.adapter := rfl
@[simp] theorem State.goto_host (s : State) (p : Word) : (s.goto p).host = s.host := rfl
@[simp] theorem State.goto_draws (s : State) (p : Word) : (s.goto p).draws = s.draws := rfl
@[simp] theorem State.goto_turn (s : State) (p : Word) : (s.goto p).turn = s.turn := rfl

@[simp] theorem State.advance_V (s : State) : (s.advance).V = s.V := rfl
@[simp] theorem State.advance_I (s : State) : (s.advance).I = s.I := rfl
@[simp] theorem State.advance_PC (s : State) : (s.advance).PC = s.PC + 2 := rfl
@[simp] theorem State.advance_SP (s : State) : (s.advance).SP = s.SP := rfl
@[simp] theorem State.advance_STACK (s : State) : (s.advance).STACK = s.STACK := rfl
@[simp] theorem State.advance_DT (s : State) : (s.advance).DT = s.DT := rfl
@[simp] theorem State.advance_ST (s : State) : (s.advance).ST = s.ST := rfl
@[simp] theorem State.advance_MEM (s : State) : (s.advance).MEM = s.MEM := rfl
@[simp] theorem State.advance_run (s : State) : (s.advance).run = s.run := rfl
@[simp] theorem State.advance_sysJump (s : State) : (s.advance).sysJump = s.sysJump := rfl
@[simp] theorem State.advance_adapter (s : State) : (s.advance).adapter = s.adapter := rfl
@[simp] theorem State.advance_host (s : State) : (s.advance).host = s.host := rfl
@[simp] theorem State.advance_draws (s : State) : (s.advance).draws = s.draws := rfl
@[simp] theorem State.advance_turn (s : State) : (s.advance).turn = s.turn := rfl

@[simp] theorem State.skipIf_V (s : State) (c : Bool) : (s.skipIf c).V = s.V := rfl
@[simp] theorem State.skipIf_I (s : State) (c : Bool) : (s.skipIf c).I = s.I := rfl
@[simp] theorem State.skipIf_PC (s : State) (c : Bool) : (s.skipIf c).PC = if c then s.PC + 4 else s.PC + 2 := rfl
@[simp] theorem State.skipIf_SP (s : State) (c : Bool) : (s.skipIf c).SP = s.SP := rfl
@[simp] theorem State.skipIf_STACK (s : State) (c : Bool) : (s.skipIf c).STACK = s.STACK := rfl
@[simp] theorem State.skipIf_DT (s : State) (c : Bool) : (s.skipIf c).DT = s.DT := rfl
@[simp] theorem State.skipIf_ST (s : State) (c : Bool) : (s.skipIf c).ST = s.ST := rfl
@[simp] theorem State.skipIf_MEM (s : State) (c : Bool) : (s.skipIf c).MEM = s.MEM := rfl
@[simp] theorem State.skipIf_run (s : State) (c : Bool) : (s.skipIf c).run = s.run := rfl
@[simp] theorem State.skipIf_sysJump (s : State) (c : Bool) : (s.skipIf c).sysJump = s.sysJump := rfl
@[simp] theorem State.skipIf_adapter (s : State) (c : Bool) : (s.skipIf c).adapter = s.adapter := rfl
@[simp] theorem State.skipIf_host (s : State) (c : Bool) : (s.skipIf c).host = s.host := rfl
@[simp] theorem State.skipIf_draws (s : State) (c : Bool) : (s.skipIf c).draws = s.draws := rfl
@[simp] theorem State.skipIf_turn (s : State) (c : Bool) : (s.skipIf c).turn = s.turn := rfl

@[simp] theorem State.halt_V (s : State) (k : FaultKind) (w : Option Word) : (s.halt k w).V = s.V := rfl
@[simp] theorem State.halt_I (s : State) (k : FaultKind) (w : Option Word) : (s.halt k w).I = s.I := rfl
@[simp] theorem State.halt_PC (s : State) (k : FaultKind) (w : Option Word) : (s.halt k w).PC = s.PC := rfl
@[simp] theorem State.halt_SP (s : State) (k : FaultKind) (w : Option Word) : (s.halt k w).SP = s.SP := rfl
@[simp] theorem State.halt_STACK (s : State) (k : FaultKind) (w : Option Word) : (s.halt k w).STACK = s.STACK := rfl
@[simp] theorem State.halt_DT (s : State) (k : FaultKind) (w : Option Word) : (s.halt k w).DT = s.DT := rfl
@[simp] theorem State.halt_ST (s : State) (k : FaultKind) (w : Option Word) : (s.halt k w).ST = s.ST := rfl
@[simp] theorem State.halt_MEM (s : State) (k : FaultKind) (w : Option Word) : (s.halt k w).MEM = s.MEM := rfl
@[simp] theorem State.halt_run (s : State) (k : FaultKind) (w : Option Word) : (s.halt k w).run = .halted { kind := k, pc := s.PC, raw := w } := rfl
@[simp] theorem State.halt_sysJump (s : State) (k : FaultKind) (w : Option Word) : (s.halt k w).sysJump = s.sysJump := rfl
@[simp] theorem State.halt_adapter (s : State) (k : FaultKind) (w : Option Word) : (s.halt k w).adapter = s.adapter := rfl
@[simp] theorem State.halt_host (s : State) (k : FaultKind) (w : Option Word) : (s.halt k w).host = s.host := rfl
@[simp] theorem State.halt_draws (s : State) (k : FaultKind) (w : Option Word) : (s.halt k w).draws = s.draws := rfl
@[simp] theorem State.halt_turn (s : State) (k : FaultKind) (w : Option Word) : (s.halt k w).turn = s.turn := rfl

@[simp] theorem State.environmentTurn_V (s : State) (e : EnvTurn) : (s.environmentTurn e).V = s.V := rfl
@[simp] theorem State.environmentTurn_I (s : State) (e : EnvTurn) : (s.environmentTurn e).I = s.I := rfl
@[simp] theorem State.environmentTurn_PC (s : State) (e : EnvTurn) : (s.environmentTurn e).PC = s.PC := rfl
@[simp] theorem State.environmentTurn_SP (s : State) (e : EnvTurn) : (s.environmentTurn e).SP = s.SP := rfl
@[simp] theorem State.environmentTurn_STACK (s : State) (e : EnvTurn) : (s.environmentTurn e).STACK = s.STACK := rfl
@[simp] theorem State.environmentTurn_DT (s : State) (e : EnvTurn) : (s.environmentTurn e).DT = ticks e.dtTicks s.DT := rfl
@[simp] theorem State.environmentTurn_ST (s : State) (e : EnvTurn) : (s.environmentTurn e).ST = ticks e.stTicks s.ST := rfl
@[simp] theorem State.environmentTurn_MEM (s : State) (e : EnvTurn) : (s.environmentTurn e).MEM = s.MEM := rfl
@[simp] theorem State.environmentTurn_run (s : State) (e : EnvTurn) : (s.environmentTurn e).run = s.run := rfl
@[simp] theorem State.environmentTurn_sysJump (s : State) (e : EnvTurn) : (s.environmentTurn e).sysJump = s.sysJump := rfl
@[simp] theorem State.environmentTurn_adapter (s : State) (e : EnvTurn) : (s.environmentTurn e).adapter = { s.adapter with keys := e.keys } := rfl
@[simp] theorem State.environmentTurn_host (s : State) (e : EnvTurn) : (s.environmentTurn e).host = s.host := rfl
@[simp] theorem State.environmentTurn_draws (s : State) (e : EnvTurn) : (s.environmentTurn e).draws = s.draws := rfl
@[simp] theorem State.environmentTurn_turn (s : State) (e : EnvTurn) : (s.environmentTurn e).turn = s.turn + 1 := rfl

/-- Reading a register after writing one: none is hardwired (R20). -/
@[simp] theorem State.reg_setReg (s : State) (x r : RegIx) (v : Byte) :
    (s.setReg x v).reg r = if x = r then v else s.reg r := by
  simp only [State.reg, State.setReg, Vector.get_eq_getElem, Vector.getElem_set, Fin.ext_iff]

/-- Reading a register file after writing one register of it. -/
@[simp] theorem get_set_V (V : Vector Byte 16) (x r : RegIx) (v : Byte) :
    (V.set x.val v x.isLt).get r = if x = r then v else V.get r := by
  simp only [Vector.get_eq_getElem, Vector.getElem_set, Fin.ext_iff]

@[simp] theorem State.reg_setI (s : State) (v : Word) (r : RegIx) : (s.setI v).reg r = s.reg r := rfl
@[simp] theorem State.reg_setDT (s : State) (v : Byte) (r : RegIx) : (s.setDT v).reg r = s.reg r := rfl
@[simp] theorem State.reg_goto (s : State) (p : Word) (r : RegIx) : (s.goto p).reg r = s.reg r := rfl
@[simp] theorem State.reg_advance (s : State) (r : RegIx) : s.advance.reg r = s.reg r := rfl
@[simp] theorem State.reg_skipIf (s : State) (c : Bool) (r : RegIx) : (s.skipIf c).reg r = s.reg r := rfl
@[simp] theorem State.reg_halt (s : State) (k : FaultKind) (w : Option Word) (r : RegIx) : (s.halt k w).reg r = s.reg r := rfl
@[simp] theorem State.reg_environmentTurn (s : State) (e : EnvTurn) (r : RegIx) : (s.environmentTurn e).reg r = s.reg r := rfl

/-- Setting ST answers its old value and changes ST alone (R65, R202). -/
@[simp] theorem State.exchangeST_eq (s : State) (v : Byte) : s.exchangeST v = (s.ST, { s with ST := v }) := rfl

/-- Each draw answers the free value of its number and counts it (R255). -/
@[simp] theorem State.drawByte_eq (s : State) : s.drawByte = (Config.randomByte s.draws, { s with draws := s.draws + 1 }) := rfl
@[simp] theorem State.drawBool_eq (s : State) : s.drawBool = (Config.pollAbove15 s.draws, { s with draws := s.draws + 1 }) := rfl
@[simp] theorem State.drawWord_eq (s : State) :
    s.drawWord = (Config.fontAddressAbove15 s.draws, { s with draws := s.draws + 1 }) := rfl

/-- A key event writes V[x], PC and the run state, and nothing else (R223). -/
theorem State.deliverKey_eq (s : State) (x : RegIx) (pc0 : Word) (k : BitVec 4) :
    s.deliverKey x pc0 k = { s with V := (s.setReg x (k.zeroExtend 8)).V, PC := pc0 + 2, run := .running } := rfl

end Sys2Proof.Machine
end

