-- ==== Sys2Proof/Laws/Ops.lean ====
section
/-! SUPPORT. What each shared operation can do, said once: address checks, register runs, the stack, the flags, the draws, raising a
fault, the environment's turn. -/

namespace Sys2Proof.Machine

/-- The range check in closed form: the lowest out-of-range address is `max base 0x1000` (R233). -/
theorem checkRange_eq (base len : Nat) :
    checkRange base len = if 0 < len ∧ 0x1000 < base + len then some (max base 0x1000) else none := by
  induction len with
  | zero => simp [checkRange]
  | succ n ih =>
    unfold checkRange at *
    rw [List.range_succ, List.findSome?_append, ih]
    simp only [List.findSome?_cons, List.findSome?_nil, checkAddr]
    by_cases h1 : 0 < n ∧ 0x1000 < base + n
    · rw [if_pos h1, Option.some_or, if_pos (by omega)]
    · rw [if_neg h1]
      by_cases h2 : base + n > 0xFFF
      · rw [if_pos h2, if_pos (by omega)]; simp only [Option.none_or, Option.some.injEq]; omega
      · rw [if_neg h2, if_neg (by omega)]; rfl

theorem checkRange_none {base len : Nat} (h : checkRange base len = none) : len = 0 ∨ base + len ≤ 0x1000 := by
  rw [checkRange_eq] at h; split at h
  · cases h
  · omega

theorem checkRange_of_le {base len : Nat} (h : base + len ≤ 0x1000) : checkRange base len = none := by
  rw [checkRange_eq, if_neg (by omega)]

theorem checkRange_some {base len addr : Nat} (h : checkRange base len = some addr) :
    0 < len ∧ 0x1000 < base + len ∧ addr = max base 0x1000 := by
  rw [checkRange_eq] at h; split at h
  · cases h; omega
  · cases h

/-- Writing registers in a run changes V only. -/
theorem State.setRegsFrom_frame (s : State) (i : Nat) (vs : List Byte) :
    s.setRegsFrom i vs = { s with V := (s.setRegsFrom i vs).V } := by
  induction vs generalizing s i with
  | nil => rfl
  | cons v vs ih =>
    simp only [State.setRegsFrom]; split
    · rw [ih]; rfl
    · rfl

/-- Each register after a run of register writes (R185). -/
theorem State.reg_setRegsFrom (s : State) (i : Nat) (vs : List Byte) (r : RegIx) :
    (s.setRegsFrom i vs).reg r = if h : i ≤ r.val ∧ r.val - i < vs.length then vs[r.val - i]'h.2 else s.reg r := by
  induction vs generalizing s i with
  | nil => simp [State.setRegsFrom]
  | cons v vs ih =>
    simp only [State.setRegsFrom, List.length_cons]
    by_cases hi : i < 16
    · rw [dif_pos hi, ih]
      by_cases h1 : i + 1 ≤ r.val ∧ r.val - (i + 1) < vs.length
      · rw [dif_pos h1, dif_pos (by omega)]
        have : r.val - i = (r.val - (i + 1)) + 1 := by omega
        simp [this]
      · rw [dif_neg h1, State.reg_setReg]
        by_cases h2 : r.val = i
        · rw [if_pos (Fin.ext h2.symm), dif_pos (by omega)]; simp [h2]
        · rw [if_neg (fun h => h2 (by rw [← h])), dif_neg (by omega)]
    · rw [dif_neg hi, dif_neg (by have := r.isLt; omega)]

@[simp] theorem State.length_regsUpTo (s : State) (x : RegIx) : (s.regsUpTo x).length = x.val + 1 := by
  have := x.isLt; simp [State.regsUpTo]

@[simp] theorem State.getElem_regsUpTo (s : State) (x : RegIx) (k : Nat) (h : k < (s.regsUpTo x).length) :
    (s.regsUpTo x)[k] = s.reg ⟨k, by have := x.isLt; simp at h; omega⟩ := by
  simp [State.regsUpTo, State.reg, Vector.get_eq_getElem]

/-- A push: full, or the slot at SP written and SP one higher (R28). -/
theorem State.push_ok {s t : State} {v : Word} (h : s.push v = .ok t) :
    ∃ hsp : s.SP.val < 16, t = { s with STACK := s.STACK.set s.SP.val v hsp, SP := ⟨s.SP.val + 1, by omega⟩ } := by
  unfold State.push at h; split at h
  · rename_i hsp; cases h; exact ⟨hsp, rfl⟩
  · cases h

theorem State.push_error {s : State} {v : Word} {k : FaultKind} (h : s.push v = .error k) :
    s.SP.val = 16 ∧ k = .stackFault .overflow := by
  unfold State.push at h; split at h
  · cases h
  · cases h; exact ⟨by have := s.SP.isLt; omega, rfl⟩

/-- A pop: empty, or the top slot's value and SP one lower (R29). -/
theorem State.pop_ok {s t : State} {v : Word} (h : s.pop = .ok (v, t)) :
    ∃ hsp : 0 < s.SP.val, v = s.STACK.get ⟨s.SP.val - 1, by omega⟩ ∧ t = { s with SP := ⟨s.SP.val - 1, by omega⟩ } := by
  unfold State.pop at h; split at h
  · rename_i hsp; cases h; exact ⟨hsp, rfl, rfl⟩
  · cases h

theorem State.pop_error {s : State} {k : FaultKind} (h : s.pop = .error k) :
    s.SP.val = 0 ∧ k = .stackFault .underflow := by
  unfold State.pop at h; split at h
  · cases h
  · cases h; exact ⟨by omega, rfl⟩

/-- A key poll changes only the requests sent, or only the draws counted (R135, R256). -/
theorem State.pollKey_frame (s : State) (k : Byte) :
    (s.pollKey k).2 = { s with adapter := { s.adapter with sent := (s.pollKey k).2.adapter.sent }, draws := (s.pollKey k).2.draws } := by
  unfold State.pollKey; split <;> rfl

/-- A flag is 0 or 1 (R23). -/
theorem flag_cases (b : Bool) : flag b = 0 ∨ flag b = 1 := by cases b <;> simp [flag]

/-- A byte reduced from a natural number (R150). -/
@[simp] theorem toNat_mod256 (n : Nat) : (mod256 n).toNat = n % 256 := by simp [mod256]

/-- One decrement, as a number (R240). -/
theorem toNat_tick (t : Byte) : (tick t).toNat = t.toNat - 1 := by
  unfold tick; split
  · have := t.isLt; rw [BitVec.toNat_sub]; simp only [BitVec.ofNat_eq_ofNat, BitVec.toNat_ofNat]; omega
  · omega

/-- An environment turn after a step, where there is one, changes the timers, the keyboard and the turn count only. -/
theorem State.afterStep_cases (s : State) (e : EnvTurn) :
    (s.afterStep e = s.environmentTurn e ∧ (s.run = .running ∨ ∃ x p, s.run = .waitKey x p)) ∨
    (s.afterStep e = s ∧ (s.run = .stopped ∨ ∃ r, s.run = .halted r)) := by
  unfold State.afterStep; cases h : s.run <;> simp

/-- The rows of a sprite change the framebuffer and the requests sent, and not the keyboard. -/
theorem Adapter.drawRows_keys (xc : Byte) (bs : List Byte) (y : BitVec 9) (c : Bool) (a : Adapter) :
    (Adapter.drawRows xc bs y c a).2.keys = a.keys := by
  induction bs generalizing y c a with
  | nil => rfl
  | cons b bs ih => simp only [Adapter.drawRows, ih]; rfl

/-- A sprite with no rows sends no request (R211). -/
theorem Adapter.drawRows_nil (xc : Byte) (y : BitVec 9) (c : Bool) (a : Adapter) :
    Adapter.drawRows xc [] y c a = (c, a) := rfl

end Sys2Proof.Machine
end

