-- ==== Sys2Proof/Laws/Exec.lean ====
section
/-! SUPPORT. What the shared shapes of an instruction can do, and the inversion lemmas of `exec` and of a step: each is said once here and
cited afterwards. -/

namespace Sys2Proof.Machine

open Sys2Proof.Safety

/-- Raising a fault is the state halted with the record, all else as it was (R230, R237). -/
theorem State.raise_eq (s : State) (k : FaultKind) (i : Instr) :
    s.raise k i = .next (haltedWith s { kind := k, pc := s.PC, raw := some (encode i) }) := rfl

/-- A store at I whose addresses all exist. -/
theorem State.storeAtI_ok (s : State) (vs : List Byte) (i : Instr) (h : s.I.toNat + vs.length ≤ 0x1000) :
    s.storeAtI vs i = .next ({ s with MEM := s.MEM.writeBytes s.I.toNat vs } : State).advance := by
  simp [State.storeAtI, checkRange_of_le h]

/-- A store at I with an address that does not exist. -/
theorem State.storeAtI_fault (s : State) (vs : List Byte) (i : Instr) (h0 : 0 < vs.length)
    (h : 0x1000 < s.I.toNat + vs.length) :
    s.storeAtI vs i = s.raise (.boundsFault (max s.I.toNat 0x1000)) i := by
  simp [State.storeAtI, checkRange_eq, h, h0]

/-- The spec's bounds fault is the model's range check (R54, R233). -/
theorem boundsFaultOf_eq (base len : Nat) : boundsFaultOf base len = (checkRange base len).map FaultKind.boundsFault := by
  rw [boundsFaultOf, checkRange_eq]
  by_cases h : 0 < len ∧ 0x1000 < base + len
  · rw [if_pos h, if_pos (by omega)]; rfl
  · rw [if_neg h, if_neg (by omega)]; rfl

/-- The model's fetched word is the big-endian word at PC (R53). -/
theorem readWord_eq_wordAtPC (s : State) : s.MEM.readWord s.PC.toNat = wordAtPC s := by
  have h1 := (s.MEM.read s.PC.toNat).isLt
  have h2 := (s.MEM.read (s.PC.toNat + 1)).isLt
  apply BitVec.eq_of_toNat_eq
  refine (toNat_append_add _ _).trans ?_
  simp only [wordAtPC, BitVec.toNat_ofNat]; omega

/-- Fetch and decode when both bytes exist (R100). -/
theorem State.fetchDecode_ok (s : State) (h : s.PC.toNat + 1 ≤ 0xFFF) :
    s.fetchDecode = match decode (wordAtPC s) with
      | .ok i => .ok i
      | .error _ => .error (.decodeFault, some (wordAtPC s)) := by
  have hf : s.fetch = .ok (wordAtPC s) := by
    simp [State.fetch, checkRange_of_le (show s.PC.toNat + 2 ≤ 0x1000 by omega), readWord_eq_wordAtPC]
  cases hd : decode (wordAtPC s) <;> simp [State.fetchDecode, hf, hd]

/-- Fetch when a byte does not exist (R100, R233). -/
theorem State.fetchDecode_fault (s : State) (h : 0xFFF < s.PC.toNat + 1) :
    s.fetchDecode = .error (.boundsFault (max s.PC.toNat 0x1000), none) := by
  simp [State.fetchDecode, State.fetch, checkRange_eq, show 0x1000 < s.PC.toNat + 2 by omega]

/-- What an instruction can do: raise its own fault, with nothing else changed, or complete; completing, it leaves the run
state as it was, but for `Fx0A`, which enters its key wait. -/
theorem exec_outcome (i : Instr) (s : State) :
    (∃ k, ownFault i s = some k ∧ exec i s = s.raise k i) ∨
    (ownFault i s = none ∧ ∃ t, exec i s = .next t ∧ (t.run = s.run ∨ ∃ x, i = .ldVxK x ∧ t.run = .waitKey x s.PC)) := by
  cases i
  case ret =>
    by_cases h : s.SP.val = 0
    · left; simp [ownFault, h, exec, execRet, State.pop]
    · right; simp [ownFault, h, exec, execRet, State.pop, show 0 < s.SP.val by omega]
  case call nnn =>
    have := s.SP.isLt
    by_cases h : s.SP.val = 16
    · left; simp [ownFault, h, exec, execCall, State.push]
    · right; simp [ownFault, h, exec, execCall, State.push, show s.SP.val < 16 by omega]
  case drw x y n =>
    simp only [ownFault, boundsFaultOf_eq, exec, execDrw]
    cases checkRange s.I.toNat n.toNat with
    | some a => exact .inl ⟨_, rfl, rfl⟩
    | none => exact .inr ⟨rfl, _, rfl, .inl rfl⟩
  case ldB x =>
    simp only [ownFault, boundsFaultOf_eq, exec, execLdB, State.storeAtI, show (bcdDigits (s.reg x)).length = 3 from rfl]
    cases checkRange s.I.toNat 3 with
    | some a => exact .inl ⟨_, rfl, rfl⟩
    | none => exact .inr ⟨rfl, _, rfl, .inl rfl⟩
  case ldMemStore x =>
    simp only [ownFault, boundsFaultOf_eq, exec, execLdMemStore, State.storeAtI, State.length_regsUpTo]
    cases checkRange s.I.toNat (x.val + 1) with
    | some a => exact .inl ⟨_, rfl, rfl⟩
    | none => exact .inr ⟨rfl, _, rfl, .inl rfl⟩
  case ldMemLoad x =>
    simp only [ownFault, boundsFaultOf_eq, exec, execLdMemLoad]
    cases checkRange s.I.toNat (x.val + 1) with
    | some a => exact .inl ⟨_, rfl, rfl⟩
    | none => refine .inr ⟨rfl, _, rfl, .inl ?_⟩; rw [State.setRegsFrom_frame]; rfl
  case ldF x => right; refine ⟨rfl, ?_⟩; simp only [exec, execLdF]; split <;> exact ⟨_, rfl, .inl rfl⟩
  case ldVxK x => exact .inr ⟨rfl, _, rfl, .inr ⟨_, rfl, rfl⟩⟩
  case skp x => refine .inr ⟨rfl, _, rfl, .inl ?_⟩; rw [State.pollKey_frame]; rfl
  case sknp x => refine .inr ⟨rfl, _, rfl, .inl ?_⟩; rw [State.pollKey_frame]; rfl
  case sys nnn => refine .inr ⟨rfl, _, rfl, .inl ?_⟩; split <;> rfl
  all_goals exact .inr ⟨rfl, _, rfl, .inl rfl⟩

/-- The environment's turn after a step leaves the run state alone. -/
@[simp] theorem State.afterStep_run (s : State) (e : EnvTurn) : (s.afterStep e).run = s.run := by
  rcases s.afterStep_cases e with ⟨h, -⟩ | ⟨h, -⟩ <;> rw [h]; rfl

/-- What a step to a next state can be: a stop served, a fault of the fetch or the decoder, an instruction and the
environment's turn, or a turn of a key wait. -/
theorem stepWith_next {e : EnvTurn} {s t : State} (h : stepWith e s = .next t) :
    (s.host = .stop ∧ t = s.stop ∧ (s.run = .running ∨ ∃ x pc0, s.run = .waitKey x pc0)) ∨
    (s.host = .step ∧ s.run = .running ∧ ∃ k raw, s.fetchDecode = .error (k, raw) ∧ t = s.halt k raw) ∨
    (s.host = .step ∧ s.run = .running ∧ ∃ i u, s.fetchDecode = .ok i ∧ exec i s = .next u ∧ t = u.afterStep e) ∨
    (s.host = .step ∧ ∃ x pc0, s.run = .waitKey x pc0 ∧ t = s.waitTurn e x pc0) := by
  cases hr : s.run with
  | halted r => simp [stepWith, hr] at h
  | stopped => simp [stepWith, hr] at h
  | waitKey x pc0 => cases hh : s.host <;> simp [stepWith, hr, hh] at h <;> simp [h]
  | running =>
    cases hh : s.host with
    | stop => simp [stepWith, hr, hh] at h; simp [h]
    | step =>
      cases hf : s.fetchDecode with
      | error p => simp [stepWith, hr, hh, stepRunning, hf] at h; exact .inr (.inl ⟨rfl, rfl, p.1, p.2, rfl, h.symm⟩)
      | ok i =>
        rcases exec_outcome i s with ⟨k, -, he⟩ | ⟨-, u, he, -⟩
        · rw [State.raise_eq] at he
          simp [stepWith, hr, hh, stepRunning, hf, he] at h; simp [he, h]
        · simp [stepWith, hr, hh, stepRunning, hf, he] at h; simp [he, h]

/-- One flip changes one pixel (R253). -/
theorem Framebuffer.pixel_flip (fb : Framebuffer) (c r c' r' : Nat) :
    (fb.flip c r).pixel c' r' = (fb.pixel c' r' ^^ decide (r' % 32 = r % 32 ∧ c' % 64 = c % 64)) := by
  simp only [Framebuffer.flip, Framebuffer.pixel, Vector.get_eq_getElem, Vector.getElem_set]
  by_cases h : r % 32 = r' % 32
  · have : c % 64 < 64 := by omega
    simp only [h, if_true]
    rw [BitVec.getLsbD_xor, BitVec.getLsbD_twoPow]; simp [this, eq_comm]
  · rw [if_neg h]; simp [Ne.symm h]

end Sys2Proof.Machine
end

