-- ==== Sys2Proof/Laws/PerInstr.lean ====
section
/-! SUPPORT. The per-instruction family EncodeMatchesRow: the word of every instruction lies in the instruction's own row of the opcode
table (mask and match), whatever its operands (spec/30_encoding.md R84, R90). -/

namespace Sys2Proof.Laws.EncodeMatchesRow

/-- The word of the instruction has the fixed bits its row of the opcode table gives. -/
def Statement (i : Instr) : Prop := i.row.covers (encode i) = true

/-- Format NNN under the mask 0xF000: the family alone is left. -/
theorem wordNNN_masked (f : BitVec 4) (nnn : Addr12) : wordNNN f nnn &&& 0xF000 = f ++ 0#12 := by
  show (f ++ nnn) &&& (0xF#4 ++ 0x000#12) = _
  rw [BitVec.and_append, BitVec.and_zero]
  congr 1; exact BitVec.and_allOnes (w := _)

/-- Format XKK under the mask 0xF000. -/
theorem wordXKK_masked (f : BitVec 4) (x : RegIx) (kk : Byte) : wordXKK f x kk &&& 0xF000 = f ++ 0#12 := by
  rw [eq_wordNNN (wordXKK f x kk), wordNNN_masked, fieldF_wordXKK]

/-- Format XYN under the mask 0xF000. -/
theorem wordXYN_masked (f : BitVec 4) (x y : RegIx) (n : BitVec 4) : wordXYN f x y n &&& 0xF000 = f ++ 0#12 := by
  rw [eq_wordNNN (wordXYN f x y n), wordNNN_masked, fieldF_wordXYN]

/-- Format XF under the mask 0xF0FF: the family and the function code are left. -/
theorem wordXF_masked (f : BitVec 4) (x : RegIx) (kk : Byte) : wordXKK f x kk &&& 0xF0FF = f ++ 0#4 ++ kk := by
  show (f ++ BitVec.ofFin (w := 4) x ++ kk) &&& (0xF#4 ++ 0x0#4 ++ 0xFF#8) = _
  rw [BitVec.and_append, BitVec.and_append, BitVec.and_zero]
  congr 2
  · exact BitVec.and_allOnes (w := _)
  · exact BitVec.and_allOnes (w := _)

/-- Family 8 under the mask 0xF00F: the family and the function `n` are left. -/
theorem wordALU_masked (f : BitVec 4) (x y : RegIx) (n : BitVec 4) :
    wordXYN f x y n &&& 0xF00F = f ++ 0#4 ++ 0#4 ++ n := by
  have h : (0xF00F : Word) = 0xF#4 ++ 0x0#4 ++ 0x0#4 ++ 0xF#4 := by decide
  have hf : f &&& 0xF#4 = f := BitVec.and_allOnes
  have hn : n &&& 0xF#4 = n := BitVec.and_allOnes
  rw [h, wordXYN, BitVec.and_append, BitVec.and_append, BitVec.and_append, BitVec.and_zero, BitVec.and_zero, hf, hn]

theorem cls : Statement .cls := by unfold Statement; decide
theorem ret : Statement .ret := by unfold Statement; decide
theorem sys (nnn : Addr12) : Statement (.sys nnn) := beq_iff_eq.mpr (wordNNN_masked _ _)
theorem jp (nnn : Addr12) : Statement (.jp nnn) := beq_iff_eq.mpr (wordNNN_masked _ _)
theorem call (nnn : Addr12) : Statement (.call nnn) := beq_iff_eq.mpr (wordNNN_masked _ _)
theorem seImm (x : RegIx) (kk : Byte) : Statement (.seImm x kk) := beq_iff_eq.mpr (wordXKK_masked _ _ _)
theorem sneImm (x : RegIx) (kk : Byte) : Statement (.sneImm x kk) := beq_iff_eq.mpr (wordXKK_masked _ _ _)
theorem seReg (x y : RegIx) : Statement (.seReg x y) := beq_iff_eq.mpr (wordXYN_masked _ _ _ _)
theorem ldImm (x : RegIx) (kk : Byte) : Statement (.ldImm x kk) := beq_iff_eq.mpr (wordXKK_masked _ _ _)
theorem addImm (x : RegIx) (kk : Byte) : Statement (.addImm x kk) := beq_iff_eq.mpr (wordXKK_masked _ _ _)
theorem ldReg (x y : RegIx) : Statement (.ldReg x y) := beq_iff_eq.mpr (wordALU_masked _ _ _ _)
theorem orReg (x y : RegIx) : Statement (.orReg x y) := beq_iff_eq.mpr (wordALU_masked _ _ _ _)
theorem andReg (x y : RegIx) : Statement (.andReg x y) := beq_iff_eq.mpr (wordALU_masked _ _ _ _)
theorem xorReg (x y : RegIx) : Statement (.xorReg x y) := beq_iff_eq.mpr (wordALU_masked _ _ _ _)
theorem addReg (x y : RegIx) : Statement (.addReg x y) := beq_iff_eq.mpr (wordALU_masked _ _ _ _)
theorem subReg (x y : RegIx) : Statement (.subReg x y) := beq_iff_eq.mpr (wordALU_masked _ _ _ _)
theorem shrReg (x y : RegIx) : Statement (.shrReg x y) := beq_iff_eq.mpr (wordALU_masked _ _ _ _)
theorem subnReg (x y : RegIx) : Statement (.subnReg x y) := beq_iff_eq.mpr (wordALU_masked _ _ _ _)
theorem shlReg (x y : RegIx) : Statement (.shlReg x y) := beq_iff_eq.mpr (wordALU_masked _ _ _ _)
theorem sneReg (x y : RegIx) : Statement (.sneReg x y) := beq_iff_eq.mpr (wordXYN_masked _ _ _ _)
theorem ldI (nnn : Addr12) : Statement (.ldI nnn) := beq_iff_eq.mpr (wordNNN_masked _ _)
theorem jpV0 (nnn : Addr12) : Statement (.jpV0 nnn) := beq_iff_eq.mpr (wordNNN_masked _ _)
theorem rnd (x : RegIx) (kk : Byte) : Statement (.rnd x kk) := beq_iff_eq.mpr (wordXKK_masked _ _ _)
theorem drw (x y : RegIx) (n : BitVec 4) : Statement (.drw x y n) := beq_iff_eq.mpr (wordXYN_masked _ _ _ _)
theorem skp (x : RegIx) : Statement (.skp x) := beq_iff_eq.mpr (wordXF_masked _ _ _)
theorem sknp (x : RegIx) : Statement (.sknp x) := beq_iff_eq.mpr (wordXF_masked _ _ _)
theorem ldVxDT (x : RegIx) : Statement (.ldVxDT x) := beq_iff_eq.mpr (wordXF_masked _ _ _)
theorem ldVxK (x : RegIx) : Statement (.ldVxK x) := beq_iff_eq.mpr (wordXF_masked _ _ _)
theorem ldDTVx (x : RegIx) : Statement (.ldDTVx x) := beq_iff_eq.mpr (wordXF_masked _ _ _)
theorem ldSTVx (x : RegIx) : Statement (.ldSTVx x) := beq_iff_eq.mpr (wordXF_masked _ _ _)
theorem addI (x : RegIx) : Statement (.addI x) := beq_iff_eq.mpr (wordXF_masked _ _ _)
theorem ldF (x : RegIx) : Statement (.ldF x) := beq_iff_eq.mpr (wordXF_masked _ _ _)
theorem ldB (x : RegIx) : Statement (.ldB x) := beq_iff_eq.mpr (wordXF_masked _ _ _)
theorem ldMemStore (x : RegIx) : Statement (.ldMemStore x) := beq_iff_eq.mpr (wordXF_masked _ _ _)
theorem ldMemLoad (x : RegIx) : Statement (.ldMemLoad x) := beq_iff_eq.mpr (wordXF_masked _ _ _)

end Sys2Proof.Laws.EncodeMatchesRow
end

