-- ==== Sys2Proof/Machine/Assembly.lean ====
section
/-! DEFINITION. The assembler spelling of an instruction (spec/30_encoding.md R90, R91). It has no effect on the machine; the
spellings of `8xy0` to `8xy3` and the operand form of the ALU family are the spec's general knowledge (G3; log 28). -/

namespace Sys2Proof.Machine

/-- A register name, `V0` to `VF` (R91). -/
def regName (x : RegIx) : String := "V" ++ String.singleton (Nat.digitChar x.val).toUpper

/-- An immediate or an address as a hexadecimal number (R9, R91). -/
def hexNumber (n : Nat) : String := "0x" ++ String.ofList ((Nat.toDigits 16 n).map Char.toUpper)

/-- The mnemonic and its operands, as R90's assembler column gives them. -/
def assembly : Instr → String
  | .cls => "CLS"
  | .ret => "RET"
  | .sys nnn => "SYS " ++ hexNumber nnn.toNat
  | .jp nnn => "JP " ++ hexNumber nnn.toNat
  | .call nnn => "CALL " ++ hexNumber nnn.toNat
  | .seImm x kk => "SE " ++ regName x ++ ", " ++ hexNumber kk.toNat
  | .sneImm x kk => "SNE " ++ regName x ++ ", " ++ hexNumber kk.toNat
  | .seReg x y => "SE " ++ regName x ++ ", " ++ regName y
  | .ldImm x kk => "LD " ++ regName x ++ ", " ++ hexNumber kk.toNat
  | .addImm x kk => "ADD " ++ regName x ++ ", " ++ hexNumber kk.toNat
  | .ldReg x y => "LD " ++ regName x ++ ", " ++ regName y
  | .orReg x y => "OR " ++ regName x ++ ", " ++ regName y
  | .andReg x y => "AND " ++ regName x ++ ", " ++ regName y
  | .xorReg x y => "XOR " ++ regName x ++ ", " ++ regName y
  | .addReg x y => "ADD " ++ regName x ++ ", " ++ regName y
  | .subReg x y => "SUB " ++ regName x ++ ", " ++ regName y
  | .shrReg x y => "SHR " ++ regName x ++ ", " ++ regName y
  | .subnReg x y => "SUBN " ++ regName x ++ ", " ++ regName y
  | .shlReg x y => "SHL " ++ regName x ++ ", " ++ regName y
  | .sneReg x y => "SNE " ++ regName x ++ ", " ++ regName y
  | .ldI nnn => "LD I, " ++ hexNumber nnn.toNat
  | .jpV0 nnn => "JP V0, " ++ hexNumber nnn.toNat
  | .rnd x kk => "RND " ++ regName x ++ ", " ++ hexNumber kk.toNat
  | .drw x y n => "DRW " ++ regName x ++ ", " ++ regName y ++ ", " ++ hexNumber n.toNat
  | .skp x => "SKP " ++ regName x
  | .sknp x => "SKNP " ++ regName x
  | .ldVxDT x => "LD " ++ regName x ++ ", DT"
  | .ldVxK x => "LD " ++ regName x ++ ", K"
  | .ldDTVx x => "LD DT, " ++ regName x
  | .ldSTVx x => "LD ST, " ++ regName x
  | .addI x => "ADD I, " ++ regName x
  | .ldF x => "LD F, " ++ regName x
  | .ldB x => "LD B, " ++ regName x
  | .ldMemStore x => "LD [I], " ++ regName x
  | .ldMemLoad x => "LD " ++ regName x ++ ", [I]"

end Sys2Proof.Machine
end

