-- ==== Sys2Proof/Tests/Slice0.lean ====
section
/-! SUPPORT. The model's own tests: ill-formed terms, words written out from the spec's encodings, one-step vectors of
spec/95_test_vectors.md (named in each comment), and a witness for the hypotheses of each statement. -/

namespace Sys2Proof.Tests

open Sys2Proof.Machine Sys2Proof.Safety

/-! ## WellFormed: an ill-formed term for each check -/

theorem test_sys_0E0_ill_formed : (Instr.sys 0x0E0).wellFormed = false := by decide
theorem test_sys_0EE_ill_formed : (Instr.sys 0x0EE).wellFormed = false := by decide
theorem test_sys_0E1_well_formed : (Instr.sys 0x0E1).wellFormed = true := by decide

/-! ## Decode: words written out bit by bit from R84, R90 -/

theorem test_decode_zero_family : decode 0b0000000011100000 = .ok .cls ∧ decode 0b0000000011101110 = .ok .ret ∧
    decode 0b0000000100100011 = .ok (.sys 0x123) ∧ decode 0b0000000011100001 = .ok (.sys 0x0E1) := by decide
theorem test_decode_jumps : decode 0b0001101010111100 = .ok (.jp 0xABC) ∧ decode 0b0010001100000000 = .ok (.call 0x300) ∧
    decode 0b1011001100000000 = .ok (.jpV0 0x300) := by decide
theorem test_decode_skips : decode 0b0011001101000010 = .ok (.seImm 3 0x42) ∧ decode 0b0100001101000010 = .ok (.sneImm 3 0x42) ∧
    decode 0b0101000100100111 = .ok (.seReg 1 2) ∧ decode 0b1001000100101111 = .ok (.sneReg 1 2) ∧
    decode 0b1110010110011110 = .ok (.skp 5) ∧ decode 0b1110010110100001 = .ok (.sknp 5) := by decide
theorem test_decode_loads_and_rnd : decode 0b0110101000000010 = .ok (.ldImm 10 0x02) ∧
    decode 0b0111000000000001 = .ok (.addImm 0 1) ∧ decode 0b1100000000001111 = .ok (.rnd 0 0x0F) := by decide
theorem test_decode_alu : decode 0b1000000000010000 = .ok (.ldReg 0 1) ∧ decode 0b1000000000010001 = .ok (.orReg 0 1) ∧
    decode 0b1000000000010010 = .ok (.andReg 0 1) ∧ decode 0b1000000000010011 = .ok (.xorReg 0 1) ∧
    decode 0b1000111100010100 = .ok (.addReg 15 1) ∧ decode 0b1000000011110101 = .ok (.subReg 0 15) ∧
    decode 0b1000000000010110 = .ok (.shrReg 0 1) ∧ decode 0b1000000000010111 = .ok (.subnReg 0 1) ∧
    decode 0b1000000000011110 = .ok (.shlReg 0 1) := by decide
theorem test_decode_index_memory : decode 0b1010000100100011 = .ok (.ldI 0x123) ∧ decode 0b1111001000011110 = .ok (.addI 2) ∧
    decode 0b1111000000101001 = .ok (.ldF 0) ∧ decode 0b1111000000110011 = .ok (.ldB 0) ∧
    decode 0b1111001001010101 = .ok (.ldMemStore 2) ∧ decode 0b1111001001100101 = .ok (.ldMemLoad 2) := by decide
theorem test_decode_timers_display : decode 0b1111000100000111 = .ok (.ldVxDT 1) ∧ decode 0b1111000000010101 = .ok (.ldDTVx 0) ∧
    decode 0b1111000000011000 = .ok (.ldSTVx 0) ∧ decode 0b1111001100001010 = .ok (.ldVxK 3) ∧
    decode 0b1101000100100101 = .ok (.drw 1 2 5) := by decide
/-- F1 to F6 of 95_test_vectors.md. -/
theorem test_decode_illegal : decode 0xE000 = .error (.illegalFamilyE 0x00) ∧ decode 0xE09F = .error (.illegalFamilyE 0x9F) ∧
    decode 0xF000 = .error (.illegalFamilyF 0x00) ∧ decode 0xF00B = .error (.illegalFamilyF 0x0B) ∧
    decode 0xFFFF = .error (.illegalFamilyF 0xFF) ∧ decode 0x8008 = .error (.illegalFamily8 8) ∧
    decode 0x800F = .error (.illegalFamily8 15) := by decide
theorem test_decode_truncated : decodeBytes [0x00] = .error .truncated ∧ decodeBytes [] = .error .truncated := by decide
theorem test_decode_table_word : decodeTableWord 16 0x6A02 = some (.ldImm 10 2) ∧ decodeTableWord 16 0x8009 = none := by decide
theorem test_encode_bytes_big_endian : encodeBytes (.ldImm 10 2) = [0x6A, 0x02] := by decide
theorem test_assembly : assembly (.ldImm 10 2) = "LD VA, 0x2" ∧ assembly (.drw 1 2 5) = "DRW V1, V2, 0x5" := by decide

/-! ## One step, on states built by helpers -/

/-- An environment's turn in which nothing happens. -/
def quiet : EnvTurn := { dtTicks := 0, stTicks := 0, keys := 0, keyPress := none }

/-- The reset state with registers, I and PC set. -/
def machine (regs : List (RegIx × Byte)) (i : Word := 0) (pc : Word := 0x200) : State :=
  regs.foldl (fun s rv => s.setReg rv.1 rv.2) { State.reset with I := i, PC := pc }

/-- The state with bytes stored from an address on. -/
def withBytes (s : State) (a : Nat) (vs : List Byte) : State := { s with MEM := s.MEM.writeBytes a vs }

/-- The state after one step of the word in a quiet environment meets the check. -/
def after (s : State) (w : Nat) (p : State → Bool) : Bool :=
  match stepWith quiet (s.withFetchWord 16 w) with
  | .next t => p t
  | .fault _ => false
  | .refused _ => false

/-- The step of the word halts with this record and leaves V, SP and PC as they were. -/
def haltsWith (s : State) (w : Nat) (r : FaultRecord) : Bool :=
  after s w fun t => t.run == .halted r && t.V == s.V && t.SP == s.SP && t.PC == s.PC && t.adapter == s.adapter

/-- Vectors T1, T2. -/
theorem test_ret : after { machine [] 0 0x212 with SP := 1, STACK := Vector.replicate 16 0x206 } 0x00EE
    (fun t => t.PC == 0x206 && t.SP == 0 && t.STACK.get 0 == 0x206) = true := by decide
theorem test_ret_underflow : haltsWith (machine []) 0x00EE ⟨.stackFault .underflow, 0x200, some 0x00EE⟩ = true := by decide
/-- Vectors T3, T4. -/
theorem test_sys_noop : after (machine []) 0x0123 (fun t => t.PC == 0x202 && t.V == State.reset.V) = true := by decide
theorem test_sys_jump : after { machine [] with sysJump := true } 0x0123 (fun t => t.PC == 0x123) = true := by decide
/-- Vector T6. -/
theorem test_jp : after (machine []) 0x1ABC (fun t => t.PC == 0xABC) = true := by decide
/-- Vectors T9, T10. -/
theorem test_call_sixteenth : after { machine [] with SP := 15 } 0x2300
    (fun t => t.PC == 0x300 && t.SP == 16 && t.STACK.get 15 == 0x202) = true := by decide
theorem test_call_at_end : after (machine [] 0 0xFFE) 0x2300 (fun t => t.STACK.get 0 == 0x1000 && t.SP == 1) = true := by decide
/-- Vectors T11, T12. -/
theorem test_jp_v0 : after (machine [(0, 0x10)]) 0xB300 (fun t => t.PC == 0x310) = true := by decide
theorem test_jp_v0_no_wrap : after (machine [(0, 0xFF)]) 0xBFFF (fun t => t.PC == 0x10FE) = true := by decide
/-- Vectors S1, S2. -/
theorem test_se_imm_taken : after (machine [(3, 0x42)]) 0x3342 (fun t => t.PC == 0x204) = true := by decide
theorem test_se_imm_not_taken : after (machine [(3, 0x41)]) 0x3342 (fun t => t.PC == 0x202) = true := by decide
/-- Vectors S3, S4. -/
theorem test_sne_imm_taken : after (machine [(3, 0x41)]) 0x4342 (fun t => t.PC == 0x204) = true := by decide
theorem test_sne_imm_not_taken : after (machine [(3, 0x42)]) 0x4342 (fun t => t.PC == 0x202) = true := by decide
/-- Vectors S6, S7. -/
theorem test_se_reg_nibble_ignored : after (machine [(1, 7), (2, 7)]) 0x5127 (fun t => t.PC == 0x204) = true := by decide
theorem test_se_reg_not_taken : after (machine [(1, 7), (2, 8)]) 0x5120 (fun t => t.PC == 0x202) = true := by decide
/-- Vectors S8, S9. -/
theorem test_sne_reg_taken : after (machine [(1, 7), (2, 8)]) 0x9120 (fun t => t.PC == 0x204) = true := by decide
theorem test_sne_reg_nibble_ignored : after (machine [(1, 7), (2, 7)]) 0x912F (fun t => t.PC == 0x202) = true := by decide

/-- A machine in which exactly key A is held. -/
def keyAHeld (s : State) : State := { s with adapter := { s.adapter with keys := 0x0400 } }

/-- Vectors S10, S13. -/
theorem test_skp_held : after (keyAHeld (machine [(5, 0x0A)])) 0xE59E
    (fun t => t.PC == 0x204 && t.adapter.sent == [.isKeyPressed 0xA]) = true := by decide
theorem test_sknp_held : after (keyAHeld (machine [(5, 0x0A)])) 0xE5A1 (fun t => t.PC == 0x202) = true := by decide
/-- Vectors S11, S12. -/
theorem test_skp_not_held : after (machine [(5, 0x0A)]) 0xE59E (fun t => t.PC == 0x202) = true := by decide
theorem test_sknp_not_held : after (machine [(5, 0x0A)]) 0xE5A1 (fun t => t.PC == 0x204) = true := by decide
/-- Vector A1 (the source's own, E6). -/
theorem test_ld_imm : after (machine []) 0x6A02 (fun t => t.reg 10 == 0x02 && t.PC == 0x202) = true := by decide
/-- Vectors A2, A3. -/
theorem test_add_imm_no_flag : after (machine [(0, 0xFF), (15, 0x55)]) 0x7001
    (fun t => t.reg 0 == 0 && t.reg 15 == 0x55) = true := by decide
theorem test_add_imm_to_vf : after (machine [(15, 0xFF)]) 0x7F01 (fun t => t.reg 15 == 0) = true := by decide
/-- Vectors A4 to A8. -/
theorem test_ld_reg : after (machine [(1, 0x33)]) 0x8010 (fun t => t.reg 0 == 0x33) = true := by decide
theorem test_or_keeps_vf : after (machine [(0, 0xF0), (1, 0x0F), (15, 0x77)]) 0x8011
    (fun t => t.reg 0 == 0xFF && t.reg 15 == 0x77) = true := by decide
theorem test_and : after (machine [(0, 0xF0), (1, 0x3C)]) 0x8012 (fun t => t.reg 0 == 0x30) = true := by decide
theorem test_xor : after (machine [(0, 0xF0), (1, 0x3C)]) 0x8013 (fun t => t.reg 0 == 0xCC) = true := by decide
theorem test_xor_same : after (machine [(0, 0x55)]) 0x8003 (fun t => t.reg 0 == 0) = true := by decide
/-- Vectors A12, A13. -/
theorem test_add_flag_last : after (machine [(15, 0xFF), (1, 0x02)]) 0x8F14 (fun t => t.reg 15 == 1) = true := by decide
theorem test_add_operand_vf : after (machine [(0, 0x01), (15, 0xFF)]) 0x80F4
    (fun t => t.reg 0 == 0 && t.reg 15 == 1) = true := by decide
/-- Vectors A15, A16. -/
theorem test_sub_equal_strict : after (machine [(0, 5), (1, 5)]) 0x8015 (fun t => t.reg 0 == 0 && t.reg 15 == 0) = true := by decide
theorem test_sub_borrow : after (machine [(0, 3), (1, 5)]) 0x8015 (fun t => t.reg 0 == 0xFE && t.reg 15 == 0) = true := by decide
/-- Vectors A19, A21. -/
theorem test_shr_source_y : after (machine [(0, 0x99), (1, 0x03)]) 0x8016
    (fun t => t.reg 0 == 1 && t.reg 15 == 1 && t.reg 1 == 3) = true := by decide
theorem test_shr_flag_last : after (machine [(1, 0x02)]) 0x8F16 (fun t => t.reg 15 == 0) = true := by decide
/-- Vectors A23, A24. -/
theorem test_subn : after (machine [(0, 3), (1, 5)]) 0x8017 (fun t => t.reg 0 == 2 && t.reg 15 == 1) = true := by decide
theorem test_subn_borrow : after (machine [(0, 5), (1, 3)]) 0x8017 (fun t => t.reg 0 == 0xFE && t.reg 15 == 0) = true := by decide
/-- Vectors A26, A28. -/
theorem test_shl : after (machine [(1, 0x81)]) 0x801E (fun t => t.reg 0 == 2 && t.reg 15 == 1) = true := by decide
theorem test_shl_flag_last : after (machine [(1, 0x80)]) 0x8F1E (fun t => t.reg 15 == 1) = true := by decide
/-- Vector A29, with the drawn byte free (R163). -/
theorem test_rnd_masks_the_draw : ∃ t, exec (.rnd 0 0x0F) (machine []) = .next t ∧
    t.reg 0 = Config.randomByte 0 &&& 0x0F ∧ t.draws = 1 := ⟨_, rfl, rfl, rfl⟩
/-- Vectors M1, M4, M5. -/
theorem test_ld_i : after (machine []) 0xA123 (fun t => t.I == 0x123) = true := by decide
theorem test_add_i_wraps_16_bits : after (machine [(0, 1), (15, 0x77)] 0xFFFF) 0xF01E
    (fun t => t.I == 0 && t.reg 15 == 0x77) = true := by decide
theorem test_add_i_not_12_bits : after (machine [(0, 1)] 0x0FFF) 0xF01E (fun t => t.I == 0x1000 && t.run == .running) = true := by decide
/-- Vector M7. -/
theorem test_ld_f : after (machine [(0, 0x0F)]) 0xF029 (fun t => t.I == 0x4B) = true := by decide
/-- Vectors M9, M13. -/
theorem test_ld_b : after (machine [(0, 0xEA)] 0x300) 0xF033
    (fun t => t.MEM.readBytes 0x300 3 == [2, 3, 4] && t.I == 0x300) = true := by decide
theorem test_ld_b_bounds : haltsWith (machine [] 0xFFE) 0xF033 ⟨.boundsFault 0x1000, 0x200, some 0xF033⟩ = true := by decide
/-- Vectors M15, M16. -/
theorem test_store_last_byte : after (machine [(0, 0x5A)] 0xFFF) 0xF055 (fun t => t.MEM.read 0xFFF == 0x5A) = true := by decide
theorem test_store_bounds : haltsWith (machine [] 0xFFD) 0xF355 ⟨.boundsFault 0x1000, 0x200, some 0xF355⟩ = true := by decide
/-- Vectors M17, M18. -/
theorem test_load : after (withBytes (machine [(3, 9)] 0x300) 0x300 [2, 3, 4, 5]) 0xF265
    (fun t => t.reg 0 == 2 && t.reg 1 == 3 && t.reg 2 == 4 && t.reg 3 == 9 && t.I == 0x300) = true := by decide
theorem test_load_bounds : haltsWith (machine [] 0x1005) 0xF065 ⟨.boundsFault 0x1005, 0x200, some 0xF065⟩ = true := by decide
/-- Vectors D2v, D1v. -/
theorem test_ld_vx_dt : after { machine [] with DT := 0x3C } 0xF107 (fun t => t.reg 1 == 0x3C) = true := by decide
theorem test_ld_dt_vx : after (machine [(0, 0x3C), (15, 0x77)]) 0xF015
    (fun t => t.DT == 0x3C && t.reg 15 == 0x77) = true := by decide
/-- Vectors D5v, D6v. -/
theorem test_ld_st_tone : after (machine [(0, 0x1E)]) 0xF018
    (fun t => t.ST == 0x1E && t.adapter.sent == [.playTone 0x1E]) = true := by decide
theorem test_ld_st_no_tone : after { machine [(0, 0x0A)] with ST := 5 } 0xF018
    (fun t => t.ST == 0x0A && t.adapter.sent == []) = true := by decide
/-- Vector D4v, and a tick of a nonzero timer. -/
theorem test_tick : tick 0 = 0 ∧ tick 1 = 0 ∧ ticks 4 10 = 6 := by decide
/-- Vector G1v, on a screen with lit pixels. -/
theorem test_cls : after { machine [] with adapter := { fb := Vector.replicate 32 5, keys := 0, sent := [] } } 0x00E0
    (fun t => t.adapter.fb == Framebuffer.blank && t.adapter.sent == [.clearScreen] && t.PC == 0x202) = true := by decide
/-- Vectors G4v (both wraps), G6v. -/
theorem test_drw_wraps : after (withBytes (machine [(0, 60), (1, 31)] 0x300) 0x300 [0xFF, 0xFF]) 0xD012
    (fun t => t.adapter.fb.get 31 == 0xF00000000000000F && t.adapter.fb.get 0 == 0xF00000000000000F && t.reg 15 == 0) = true := by
  decide
theorem test_drw_bounds : haltsWith (machine [(15, 0x55)] 0xFFE) 0xD013 ⟨.boundsFault 0x1000, 0x200, some 0xD013⟩ = true := by decide
/-- Vectors G9v, G10v: the two phases of the key wait, and a stop in it. -/
theorem test_ld_vx_k_waits : after (machine []) 0xF30A
    (fun t => t.run == .waitKey 3 0x200 && t.PC == 0x200 && t.adapter.sent == [.waitForInput]) = true := by decide
theorem test_key_completes : (match stepWith { quiet with keyPress := some 7 } { machine [] with run := .waitKey 3 0x200 } with
    | .next t => t.reg 3 == 7 && t.PC == 0x202 && t.run == .running
    | _ => false) = true := by decide
theorem test_stop_in_key_wait : (match stepWith quiet { machine [(3, 0x99)] with run := .waitKey 3 0x200, host := .stop } with
    | .next t => t.run == .stopped && t.reg 3 == 0x99 && t.PC == 0x200
    | _ => false) = true := by decide
/-- Vectors F7, A31, F8. -/
theorem test_fetch_bounds : (match stepWith quiet (machine [] 0 0xFFF) with
    | .next t => t.run == .halted ⟨.boundsFault 0x1000, 0xFFF, none⟩ && t.PC == 0xFFF
    | _ => false) = true := by decide
theorem test_illegal_word : haltsWith (machine []) 0x8008 ⟨.decodeFault, 0x200, some 0x8008⟩ = true := by decide
theorem test_halted_step : (match step { machine [] with run := .halted ⟨.decodeFault, 0x200, none⟩ } with
    | .fault (.halted r) => r == ⟨.decodeFault, 0x200, none⟩
    | _ => false) = true := by decide
/-- The font of R58 at reset: sprite A at 0x032 and the last byte of F. -/
theorem test_font_at_reset : State.reset.MEM.readBytes 0x32 5 = [0xF0, 0x90, 0xF0, 0x90, 0x90] ∧
    State.reset.MEM.read 0x4F = 0x80 ∧ State.reset.MEM.read 0x50 = 0 := by decide
theorem test_font_size : defaultFont.length = Config.fontSize := by decide
/-- Writing what an unlisted address reads as removes the cell. -/
theorem test_memory_canonical : (Memory.write [(0x300, 5)] 0x300 0) = [] ∧
    Memory.write [(0x300, 5)] 0x2FF 6 = [(0x2FF, 6), (0x300, 5)] := by decide

/-! ## Witnesses: states and operands that meet the hypotheses of the statements, each clause at a boundary -/

/-- A machine with the word of an instruction at PC. -/
def at200 (w : Nat) : State := (machine []).withFetchWord 16 w

theorem witness_DecodeOfEncodeIsIdentity : (Instr.drw 15 15 15).wellFormed = true ∧ (Instr.sys 0x0EF).wellFormed = true := by decide
theorem witness_OnlySkipNibbleIsDontCare :
    decode 0xF565 = .ok (.ldMemLoad 5) ∧ (∀ x y, Instr.ldMemLoad 5 ≠ .seReg x y) ∧ (∀ x y, Instr.ldMemLoad 5 ≠ .sneReg x y) :=
  ⟨by decide, fun _ _ h => Instr.noConfusion h, fun _ _ h => Instr.noConfusion h⟩
theorem witness_FamilyZeroPrecedence : (0x0E1 : Addr12) ≠ 0x0E0 ∧ (0x0E1 : Addr12) ≠ 0x0EE := by decide
theorem witness_DecodeFollowsOpcodeTable : decode 0x00E0 = .ok .cls ∧ (Instr.sys 0).row.covers 0x00E0 = true ∧
    decode 0xE59E = .ok (.skp 5) ∧ (Instr.skp 5).row.covers 0xE59E = true := by decide
theorem witness_FetchIsBigEndianAndChecked : (machine [] 0 0xFFE).PC.toNat + 1 ≤ 0xFFF ∧ 0xFFF < (machine [] 0 0xFFF).PC.toNat + 1 := by
  decide
theorem witness_StepRunsDecodedInstruction : (at200 0x6A02).run = .running ∧ (at200 0x6A02).host = .step ∧
    (at200 0x6A02).PC.toNat + 1 ≤ 0xFFF ∧ decode (wordAtPC (at200 0x6A02)) = .ok (.ldImm 10 2) ∧
    ∃ t, exec (.ldImm 10 2) (at200 0x6A02) = .next t := ⟨by decide, by decide, by decide, by decide, _, rfl⟩
theorem witness_PlacedWordRunsNext : (machine [] 0 0xFFE).PC.toNat + 1 ≤ 0xFFF ∧ decodeTableWord 16 0x00E0 = some .cls ∧
    ∃ t, exec .cls ((machine [] 0 0xFFE).withFetchWord 16 0x00E0) = .next t := ⟨by decide, by decide, _, rfl⟩
theorem witness_StepFaultsExactlyAsSpecified : (at200 0x00EE).run = .running ∧ (at200 0x00EE).host = .step ∧
    faultOf (at200 0x00EE) = some ⟨.stackFault .underflow, 0x200, some 0x00EE⟩ ∧ faultOf (at200 0x1200) = none ∧
    faultOf (at200 0xE000) = some ⟨.decodeFault, 0x200, some 0xE000⟩ ∧
    faultOf (machine [] 0 0xFFF) = some ⟨.boundsFault 0x1000, 0xFFF, none⟩ := by decide
theorem witness_IllegalWordHaltsMachine : (at200 0x8008).run = .running ∧ (at200 0x8008).host = .step ∧
    (at200 0x8008).PC.toNat + 1 ≤ 0xFFF ∧ illegalWord (wordAtPC (at200 0x8008)) := by unfold illegalWord; decide
theorem witness_FaultsArePrecise :
    (∃ t, (at200 0x8008).run = .running ∧ stepWith quiet (at200 0x8008) = .next t ∧
      t.run = .halted ⟨.decodeFault, 0x200, some 0x8008⟩ ∧ (at200 0x8008).PC.toNat + 1 ≤ 0xFFF) ∧
    (∃ t, (machine [] 0 0xFFF).run = .running ∧ stepWith quiet (machine [] 0 0xFFF) = .next t ∧
      t.run = .halted ⟨.boundsFault 0x1000, 0xFFF, none⟩ ∧ 0xFFF < (machine [] 0 0xFFF).PC.toNat + 1) :=
  ⟨⟨_, by decide, rfl, by decide, by decide⟩, ⟨_, by decide, rfl, by decide, by decide⟩⟩
theorem witness_StepStopsOnlyAfterTheRunEnded :
    { State.reset with run := .halted ⟨.decodeFault, 0x200, none⟩ }.run = .halted ⟨.decodeFault, 0x200, none⟩ ∧
    { State.reset with run := .stopped }.run = .stopped ∧
    (∀ r, State.reset.run ≠ .halted r) ∧ State.reset.run ≠ .stopped :=
  ⟨rfl, rfl, fun _ h => RunState.noConfusion h, by decide⟩
theorem witness_StopGivesStopped : { State.reset with host := .stop }.host = .stop ∧ { State.reset with host := .stop }.run = .running ∧
    { State.reset with host := .stop, run := .waitKey 3 0x200 }.run = .waitKey 3 0x200 := by decide
theorem witness_KeyWaitTwoPhases : { State.reset with run := .waitKey 15 0xFFE }.run = .waitKey 15 0xFFE ∧
    { State.reset with run := .waitKey 15 0xFFE }.host = .step ∧ quiet.keyPress = none ∧
    { quiet with keyPress := some 15 }.keyPress = some 15 := by decide
theorem witness_DelayTimerRunsOutInKeyWait : TimersFair (fun _ => { quiet with dtTicks := 1, stTicks := 1 }) ∧
    (∀ n : Nat, ((fun _ => { quiet with dtTicks := 1, stTicks := 1 }) n : EnvTurn).keyPress = none) ∧
    { State.reset with DT := 255, run := .waitKey 0 0x200 }.run = .waitKey 0 0x200 ∧
    { State.reset with DT := 255, run := .waitKey 0 0x200 }.host = .step :=
  ⟨fun n => ⟨⟨n, Nat.le_refl n, Nat.one_pos⟩, ⟨n, Nat.le_refl n, Nat.one_pos⟩⟩, fun _ => rfl, rfl, rfl⟩
theorem witness_TimerTickSaturatesAtZero : 0 < (1 : Byte).toNat ∧ (0 : Byte) = 0 := by decide
theorem witness_EnvironmentTouchesOnlyItsOwn : State.reset.run = .running := rfl
theorem witness_TimersNeverRiseUnlessSet : (∃ t, stepWith quiet (at200 0x6A02) = .next t) ∧
    (∀ x, (at200 0x6A02).fetchDecode ≠ .ok (.ldDTVx x)) ∧ (∀ x, (at200 0x6A02).fetchDecode ≠ .ok (.ldSTVx x)) :=
  ⟨⟨_, rfl⟩, by decide, by decide⟩
theorem witness_ConstructGivesResetState : 3584 < (List.replicate 3585 (0 : Byte)).length ∧
    (List.replicate 3584 (0 : Byte)).length ≤ 3584 ∧ 3583 < (List.replicate 3584 (0 : Byte)).length ∧ 79 < 80 ∧
    (80 ≤ 0x1FF ∧ 0x1FF < 0x1000 ∧ 0x1FF < 0x200) ∧ 0x200 + ([] : List Byte).length ≤ 0x200 := by
  simp only [List.length_replicate, List.length_nil]; decide
theorem witness_StepKeepsInvariant : Inv State.reset ∧ ∃ t, step State.reset = .next t :=
  ⟨⟨by decide, by decide, fun _ h => absurd h (Nat.not_lt_zero _), fun _ _ h => RunState.noConfusion h,
    fun _ h => RunState.noConfusion h⟩, ⟨_, rfl⟩⟩
theorem witness_ReachableStatesMeetInvariant : ∃ s t, construct Params.default [0x12, 0x00] = some s ∧ Reaches s t ∧ t.host = .stop :=
  ⟨_, _, rfl, .move .refl (.request _ .stop), rfl⟩
theorem witness_OnlyCallAndReturnTouchStack : (∃ t, exec (.jp 5) State.reset = .next t) ∧ Instr.jp 5 ≠ .ret ∧
    ∀ nnn, Instr.jp 5 ≠ .call nnn := ⟨⟨_, rfl⟩, by decide, fun _ h => Instr.noConfusion h⟩
theorem witness_OnlyStoresChangeMemory : (∃ t, exec (.ldMemLoad 5) State.reset = .next t) ∧ (∀ x, Instr.ldMemLoad 5 ≠ .ldB x) ∧
    ∀ x, Instr.ldMemLoad 5 ≠ .ldMemStore x := ⟨⟨_, rfl⟩, fun _ h => Instr.noConfusion h, fun _ h => Instr.noConfusion h⟩
theorem witness_RegistersWrittenOnlyAsListed : (∃ t, exec (.addReg 1 2) State.reset = .next t) ∧ mayWrite (.addReg 1 2) 2 = false ∧
    mayWrite (.ldMemLoad 5) 6 = false ∧ mayWrite (.ldMemLoad 5) 5 = true := ⟨⟨_, rfl⟩, by decide, by decide, by decide⟩
theorem witness_SpecialRegistersWrittenOnlyAsListed : (∃ t, exec .cls State.reset = .next t) ∧ (∀ nnn, Instr.cls ≠ .ldI nnn) ∧
    (∀ x, Instr.cls ≠ .addI x) ∧ (∀ x, Instr.cls ≠ .ldF x) ∧ (∀ x, Instr.cls ≠ .ldDTVx x) ∧ ∀ x, Instr.cls ≠ .ldSTVx x :=
  ⟨⟨_, rfl⟩, by decide, by decide, by decide, by decide, by decide⟩
theorem witness_ReturnPopsIntoPC : 0 < { State.reset with SP := 1 }.SP.val ∧ 0 < { State.reset with SP := 16 }.SP.val ∧
    State.reset.SP = 0 := by decide
theorem witness_CallPushesNextAddress : { State.reset with SP := 15 }.SP.val < 16 ∧ { State.reset with SP := 16 }.SP.val = 16 := by
  decide
theorem witness_CallThenReturnComesBack : { State.reset with SP := 15 }.SP.val < 16 ∧ State.reset.SP.val < 16 := by decide
theorem witness_SysAndIndexedJump : { State.reset with sysJump := true }.sysJump = true ∧ State.reset.sysJump = false := by decide
theorem witness_RegisterSkips : (machine [(3, 0xFF)]).reg 3 = 0xFF ∧ (machine [(3, 0xFF)]).reg 3 ≠ 0 ∧
    (machine [(3, 1)]).reg 4 = (machine [(3, 1)]).reg 5 ∧ (machine [(3, 1)]).reg 3 ≠ (machine [(3, 1)]).reg 5 := by decide
theorem witness_KeySkips : ((machine [(3, 15)]).reg 3).toNat ≤ 15 ∧ 15 < ((machine [(3, 16)]).reg 3).toNat := by decide
theorem witness_ImmediateLoadAndAdd : (14 : RegIx) ≠ 15 := by decide
theorem witness_CopyAndBitwise : (Instr.orReg 1 2, State.reset.reg 1 ||| State.reset.reg 2) ∈
    [(Instr.ldReg 1 2, State.reset.reg 2), (Instr.orReg 1 2, State.reset.reg 1 ||| State.reset.reg 2),
     (Instr.andReg 1 2, State.reset.reg 1 &&& State.reset.reg 2), (Instr.xorReg 1 2, State.reset.reg 1 ^^^ State.reset.reg 2)] := by
  simp
theorem witness_AddWithCarry : (14 : RegIx) ≠ RegIx.VF ∧ (0 : RegIx) ≠ 14 ∧ (0 : RegIx) ≠ RegIx.VF := by decide
theorem witness_SubtractBothWays : (14 : RegIx) ≠ RegIx.VF ∧ (0 : RegIx) ≠ 14 ∧ (0 : RegIx) ≠ RegIx.VF := by decide
theorem witness_ShiftsOfSourceRegister : (14 : RegIx) ≠ RegIx.VF ∧ (0 : RegIx) ≠ 14 ∧ (0 : RegIx) ≠ RegIx.VF := by decide
theorem witness_RandomIsMaskedFreeByte : (0x00 : Byte) = 0 := by decide
theorem witness_AddIndexAndFontAddress : ((machine [(3, 15)]).reg 3).toNat ≤ 15 ∧ 15 < ((machine [(3, 16)]).reg 3).toNat := by decide
theorem witness_StoreDecimalDigits : (machine [] 0xFFD).I.toNat + 2 ≤ 0xFFF ∧ 0xFFF < (machine [] 0xFFE).I.toNat + 2 := by decide
theorem witness_StoreRegisters : (machine [] 0xFFF).I.toNat + (0 : RegIx).val ≤ 0xFFF ∧ (machine [] 0xFF0).I.toNat + (15 : RegIx).val ≤ 0xFFF ∧
    0xFFF < (machine [] 0x1000).I.toNat + (0 : RegIx).val ∧ (0 : RegIx) ≤ 0 := by decide
theorem witness_LoadRegisters : (machine [] 0xFFF).I.toNat + (0 : RegIx).val ≤ 0xFFF ∧ (machine [] 0xFF0).I.toNat + (15 : RegIx).val ≤ 0xFFF ∧
    0xFFF < (machine [] 0x1000).I.toNat + (0 : RegIx).val := by decide
theorem witness_LoadThenStoreRoundTrip : (machine [] 0xFF0).I.toNat + (15 : RegIx).val ≤ 0xFFF ∧ (15 : RegIx) ≤ 15 := by decide
theorem witness_SoundTimerSetAndTone : ((machine [(0, 1)]).ST = 0 ∧ (machine [(0, 1)]).reg 0 ≠ 0) ∧
    ¬({ machine [(0, 1)] with ST := 1 }.ST = 0 ∧ { machine [(0, 1)] with ST := 1 }.reg 0 ≠ 0) := by decide
theorem witness_DrawRowFlipsSpritePixels : 63 < 64 ∧ 31 < 32 := by decide
theorem witness_DrawSpriteRowsAndCollision : (0 : BitVec 4) = 0 ∧
    (machine [] 0xFF1).I.toNat + (15 : BitVec 4).toNat - 1 ≤ 0xFFF ∧ (15 : BitVec 4) ≠ 0 ∧
    0xFFF < (machine [] 0xFF2).I.toNat + (15 : BitVec 4).toNat - 1 := by decide
/-- The two outcomes of VF in a draw: on a lit row and on a blank one. -/
theorem witness_DrawSprite_collision :
    (∃ r, r < (1 : BitVec 4).toNat ∧
      rowCollides { machine [] with adapter := { fb := Vector.replicate 32 1, keys := 0, sent := [] } } 0 1 r) ∧
    (∀ r, r < (1 : BitVec 4).toNat → ¬rowCollides (machine []) 0 1 r) := by
  unfold rowCollides; decide
theorem witness_DrawTwiceRestoresFramebuffer : (∀ c, Framebuffer.blank.pixel c 31 = false) ∧ (0x80 : Byte) ≠ 0 :=
  ⟨fun c => by simp [Framebuffer.pixel, Framebuffer.blank, Vector.get_eq_getElem], by decide⟩

end Sys2Proof.Tests
end

section
/-! Which instruction may change which register, and what CALL does to the stack (spec/10_state.md R20 to R32,
spec/40_control_transfer.md R113). First the frame of each operation whose result depends on a check or on a value of the
state, then the frame of `exec`, then the statements. -/

namespace Sys2Proof.Machine

open Sys2Proof.Safety

/-! ### Frames of the operations -/

/-- A store at I changes memory and PC, or at a fault the run state (R51, R237). -/
theorem State.storeAtI_frame {s t : State} {vs : List Byte} {i : Instr} (h : s.storeAtI vs i = .next t) :
    t = { s with MEM := t.MEM, PC := t.PC, run := t.run } := by
  unfold State.storeAtI at h
  split at h <;> cases h <;> rfl

theorem execSys_frame {s t : State} {nnn : Addr12} (h : execSys nnn s = .next t) : t = { s with PC := t.PC } := by
  unfold execSys at h
  split at h <;> cases h <;> rfl

theorem execLdF_frame {s t : State} {x : RegIx} (h : execLdF x s = .next t) :
    t = { s with I := t.I, PC := t.PC, draws := t.draws } := by
  unfold execLdF at h
  split at h <;> cases h <;> rfl

theorem execRet_frame {s t : State} (h : execRet s = .next t) :
    t = { s with PC := t.PC, SP := t.SP, run := t.run } := by
  unfold execRet at h
  split at h
  · next target u hpop =>
    obtain ⟨_, _, rfl⟩ := State.pop_ok hpop
    cases h; rfl
  · cases h; rfl

theorem execCall_frame {s t : State} {nnn : Addr12} (h : execCall nnn s = .next t) :
    t = { s with PC := t.PC, SP := t.SP, STACK := t.STACK, run := t.run } := by
  unfold execCall at h
  split at h
  · next u hpush =>
    obtain ⟨_, rfl⟩ := State.push_ok hpush
    cases h; rfl
  · cases h; rfl

theorem execDrw_frame {s t : State} {x y : RegIx} {n : BitVec 4} (h : execDrw x y n s = .next t) :
    t = { s with V := t.V, PC := t.PC, run := t.run, adapter := t.adapter } := by
  unfold execDrw at h
  split at h <;> cases h <;> rfl

theorem execLdMemLoad_frame {s t : State} {x : RegIx} (h : execLdMemLoad x s = .next t) :
    t = { s with V := t.V, PC := t.PC, run := t.run } := by
  unfold execLdMemLoad at h
  split at h <;> cases h
  · rfl
  · rw [State.setRegsFrom_frame]; rfl

/-- A skip after a key poll changes PC, the requests sent and the draws counted (R135, R136). -/
theorem State.skipIf_pollKey_frame (s : State) (k : Byte) (c : Bool) :
    (s.pollKey k).2.skipIf c = { s with
      PC := ((s.pollKey k).2.skipIf c).PC
      adapter := ((s.pollKey k).2.skipIf c).adapter
      draws := ((s.pollKey k).2.skipIf c).draws } := by
  rw [State.pollKey_frame]; rfl

/-! ### General registers -/

theorem State.writeReg_reg_of_ne {s t : State} {x r : RegIx} {v : Byte} (h : s.writeReg x v = .next t) (hr : r ≠ x) :
    t.reg r = s.reg r := by
  cases h
  simp [hr.symm]

theorem State.writeRegFlag_reg_of_ne {s t : State} {x r : RegIx} {v f : Byte} (h : s.writeRegFlag x v f = .next t)
    (hr : r ≠ x ∧ r ≠ RegIx.VF) : t.reg r = s.reg r := by
  cases h
  simp [hr.1.symm, hr.2.symm]

theorem execDrw_reg_of_ne {s t : State} {x y r : RegIx} {n : BitVec 4} (h : execDrw x y n s = .next t)
    (hr : r ≠ RegIx.VF) : t.reg r = s.reg r := by
  unfold execDrw at h
  split at h <;> cases h
  · rfl
  · simp only [State.reg_advance, State.reg_setReg, if_neg hr.symm]; rfl

theorem execLdMemLoad_reg_of_lt {s t : State} {x r : RegIx} (h : execLdMemLoad x s = .next t) (hr : x < r) :
    t.reg r = s.reg r := by
  unfold execLdMemLoad at h
  split at h <;> cases h
  · rfl
  · rw [State.reg_advance, State.reg_setRegsFrom, dif_neg]
    have := Fin.lt_def.mp hr
    rw [Memory.length_readBytes]; omega

/-- R21, R22: an instruction leaves every general register that is not listed for it. -/
theorem exec_reg_of_not_mayWrite {i : Instr} {s t : State} {r : RegIx} (h : exec i s = .next t)
    (hw : mayWrite i r = false) : t.reg r = s.reg r := by
  cases i
  case ldImm | addImm | ldReg | orReg | andReg | xorReg | ldVxDT =>
    exact State.writeReg_reg_of_ne h (ne_of_beq_false hw)
  case rnd => exact State.writeReg_reg_of_ne (s := s.drawByte.2) h (ne_of_beq_false hw)
  case addReg | subReg | shrReg | subnReg | shlReg =>
    exact State.writeRegFlag_reg_of_ne h (by simpa [mayWrite] using hw)
  case drw => exact execDrw_reg_of_ne h (ne_of_beq_false hw)
  case ldMemLoad => exact execLdMemLoad_reg_of_lt h (by simpa [mayWrite] using hw)
  case ret => rw [execRet_frame h]; rfl
  case call => rw [execCall_frame h]; rfl
  case sys => rw [execSys_frame h]; rfl
  case ldF => rw [execLdF_frame h]; rfl
  case ldB | ldMemStore => rw [State.storeAtI_frame h]; rfl
  case skp | sknp => cases h; rw [State.skipIf_pollKey_frame]; rfl
  all_goals cases h; rfl

/-! ### The stack, I and the timers -/

/-- The seven instructions that write SP, a stack slot, I, DT or ST (R24, R30, R32). -/
def writesSpecial : Instr → Bool
  | .ret | .call _ | .ldI _ | .addI _ | .ldF _ | .ldDTVx _ | .ldSTVx _ => true
  | _ => false

/-- Every other instruction changes at most V, PC, memory, the run state, the adapter and the draws counted. -/
theorem exec_frame_of_not_writesSpecial {i : Instr} {s t : State} (h : exec i s = .next t)
    (hw : writesSpecial i = false) :
    t = { s with V := t.V, PC := t.PC, MEM := t.MEM, run := t.run, adapter := t.adapter, draws := t.draws } := by
  cases i
  case ret | call | ldI | addI | ldF | ldDTVx | ldSTVx => cases hw
  case sys => rw [execSys_frame h]
  case drw => rw [execDrw_frame h]
  case ldB | ldMemStore => rw [State.storeAtI_frame h]
  case ldMemLoad => rw [execLdMemLoad_frame h]
  case skp | sknp => cases h; rw [State.skipIf_pollKey_frame]
  all_goals cases h; rfl

/-! ### CALL -/

theorem State.push_of_lt {s : State} (v : Word) (h : s.SP.val < 16) :
    s.push v = .ok { s with STACK := s.STACK.set s.SP.val v h, SP := ⟨s.SP.val + 1, by omega⟩ } := dif_pos h

theorem State.push_full {s : State} (v : Word) (h : s.SP.val = 16) : s.push v = .error (.stackFault .overflow) :=
  dif_neg (by omega)

/-- Reading a stack slot after writing one. -/
theorem get_set_STACK (S : Vector Word 16) {k : Nat} (v : Word) (hk : k < 16) (j : Fin 16) :
    (S.set k v hk).get j = if j.val = k then v else S.get j := by
  simp only [Vector.get_eq_getElem, Vector.getElem_set, eq_comm]

@[simp] theorem toNat_zext16 (nnn : Addr12) : (zext16 nnn).toNat = nnn.toNat :=
  BitVec.toNat_setWidth_of_le (by decide)

/-- `2nnn` below depth 16 (R113, R28). -/
theorem exec_call_of_lt (nnn : Addr12) {s : State} (h : s.SP.val < 16) :
    exec (.call nnn) s = .next { s with
      PC := zext16 nnn
      SP := ⟨s.SP.val + 1, by omega⟩
      STACK := s.STACK.set s.SP.val (s.PC + 2) h } := by
  simp only [exec, execCall, State.push_of_lt _ h, State.goto]

/-- `2nnn` on a full stack (R234). -/
theorem exec_call_full (nnn : Addr12) {s : State} (h : s.SP.val = 16) :
    exec (.call nnn) s = s.raise (.stackFault .overflow) (.call nnn) := by
  simp only [exec, execCall, State.push_full _ h]

end Sys2Proof.Machine

namespace Sys2Proof.Proofs

open Sys2Proof.Machine Sys2Proof.Safety

/-- Settles O25: beside CALL and RET, only the writers of I and the timers need a look of their own. -/
theorem onlyCallAndReturnTouchStack : Obligations.OnlyCallAndReturnTouchStack := by
  intro i s t h hret hcall
  cases i
  case ret => exact absurd rfl hret
  case call nnn => exact absurd rfl (hcall nnn)
  case ldI | addI | ldDTVx | ldSTVx => cases h; exact ⟨rfl, rfl⟩
  case ldF => rw [execLdF_frame h]; exact ⟨rfl, rfl⟩
  all_goals rw [exec_frame_of_not_writesSpecial h rfl]; exact ⟨rfl, rfl⟩

/-- Settles O27. -/
theorem registersWrittenOnlyAsListed : Obligations.RegistersWrittenOnlyAsListed :=
  fun _ _ _ _ => exec_reg_of_not_mayWrite

/-- Settles O28: each of the seven writers of a special register leaves the others, and no other instruction writes one. -/
theorem specialRegistersWrittenOnlyAsListed : Obligations.SpecialRegistersWrittenOnlyAsListed := by
  intro i s t h
  cases i
  case ret => rw [execRet_frame h]; exact ⟨fun _ _ _ => rfl, fun _ => rfl, fun _ => rfl⟩
  case call => rw [execCall_frame h]; exact ⟨fun _ _ _ => rfl, fun _ => rfl, fun _ => rfl⟩
  case ldI nnn => cases h; exact ⟨fun hI _ _ => absurd rfl (hI nnn), fun _ => rfl, fun _ => rfl⟩
  case addI x => cases h; exact ⟨fun _ hI _ => absurd rfl (hI x), fun _ => rfl, fun _ => rfl⟩
  case ldF x => rw [execLdF_frame h]; exact ⟨fun _ _ hI => absurd rfl (hI x), fun _ => rfl, fun _ => rfl⟩
  case ldDTVx x => cases h; exact ⟨fun _ _ _ => rfl, fun hDT => absurd rfl (hDT x), fun _ => rfl⟩
  case ldSTVx x => cases h; exact ⟨fun _ _ _ => rfl, fun _ => rfl, fun hST => absurd rfl (hST x)⟩
  all_goals rw [exec_frame_of_not_writesSpecial h rfl]; exact ⟨fun _ _ _ => rfl, fun _ => rfl, fun _ => rfl⟩

/-- Settles O30: a push that has room, and one that has none. -/
theorem callPushesNextAddress : Obligations.CallPushesNextAddress := by
  intro nnn s
  constructor
  · intro hroom
    exact ⟨_, exec_call_of_lt nnn hroom, toNat_zext16 nnn, rfl, get_set_STACK s.STACK (s.PC + 2) hroom, rfl⟩
  · intro hfull
    exact (exec_call_full nnn hfull).trans (State.raise_eq s _ _)

end Sys2Proof.Proofs
end

section
/-! Memory, the environment's turn, and the invariant (spec/20_memory.md R50 to R66, spec/10_state.md section 4). First what
each move can do to memory, PC, the stack and the run state; then that each keeps the invariant; then the statements. -/

namespace Sys2Proof.Machine

open Sys2Proof.Safety

/-! ### The fetch -/

theorem toNat_wordAtPC (s : State) :
    (wordAtPC s).toNat = 256 * (s.MEM.read s.PC.toNat).toNat + (s.MEM.read (s.PC.toNat + 1)).toNat := by
  have := (s.MEM.read s.PC.toNat).isLt
  have := (s.MEM.read (s.PC.toNat + 1)).isLt
  simp only [wordAtPC, BitVec.toNat_ofNat]
  omega

theorem State.fetch_ok {s : State} (h : s.PC.toNat + 1 ≤ 0xFFF) : s.fetch = .ok (wordAtPC s) := by
  have hrange : checkRange s.PC.toNat 2 = none := checkRange_of_le (by omega)
  simp only [State.fetch, hrange, readWord_eq_wordAtPC]

theorem State.fetch_fault {s : State} (h : 0xFFF < s.PC.toNat + 1) :
    s.fetch = .error (.boundsFault (max s.PC.toNat 0x1000)) := by
  have hrange : checkRange s.PC.toNat 2 = some (max s.PC.toNat 0x1000) := by
    rw [checkRange_eq, if_pos (by omega)]
  simp only [State.fetch, hrange]

theorem State.PC_le_of_fetchDecode_ok {s : State} {i : Instr} (h : s.fetchDecode = .ok i) : s.PC.toNat ≤ 0xFFE := by
  by_contra hpc
  rw [State.fetchDecode_fault s (by omega)] at h
  cases h

/-! ### The environment's turn -/

/-- Any number of decrements, as a number (R240). -/
theorem toNat_ticks (n : Nat) (t : Byte) : (ticks n t).toNat = t.toNat - n := by
  induction n generalizing t with
  | zero => rfl
  | succ n ih => rw [ticks, ih, toNat_tick]; omega

theorem State.afterStep_of_running {s : State} (e : EnvTurn) (h : s.run = .running) :
    s.afterStep e = s.environmentTurn e := by
  simp only [State.afterStep, h]

/-! ### Memory -/

theorem exec_MEM_of_not_store {i : Instr} {s t : State} (h : exec i s = .next t) (hB : ∀ x, i ≠ .ldB x)
    (hStore : ∀ x, i ≠ .ldMemStore x) : t.MEM = s.MEM := by
  cases i
  case ldB x => exact absurd rfl (hB x)
  case ldMemStore x => exact absurd rfl (hStore x)
  case sys => rw [execSys_frame h]
  case ret => rw [execRet_frame h]
  case call => rw [execCall_frame h]
  case ldF => rw [execLdF_frame h]
  case drw => rw [execDrw_frame h]
  case ldMemLoad => rw [execLdMemLoad_frame h]
  case skp | sknp => cases h; rw [State.skipIf_pollKey_frame]
  all_goals cases h; rfl

theorem State.storeAtI_keeps_wf {s t : State} {vs : List Byte} {i : Instr} (hm : s.MEM.wf)
    (h : s.storeAtI vs i = .next t) : t.MEM.wf := by
  unfold State.storeAtI at h
  split at h <;> cases h
  · exact hm
  · next hrange =>
    rcases checkRange_none hrange with hnil | hle
    · rw [List.eq_nil_of_length_eq_zero hnil]; exact hm
    · exact Memory.wf_writeBytes hm _ vs hle

theorem exec_keeps_wf {i : Instr} {s t : State} (hm : s.MEM.wf) (h : exec i s = .next t) : t.MEM.wf := by
  by_cases hB : ∃ x, i = .ldB x
  · obtain ⟨x, rfl⟩ := hB; exact State.storeAtI_keeps_wf hm h
  by_cases hStore : ∃ x, i = .ldMemStore x
  · obtain ⟨x, rfl⟩ := hStore; exact State.storeAtI_keeps_wf hm h
  · rw [exec_MEM_of_not_store h (not_exists.mp hB) (not_exists.mp hStore)]; exact hm

/-! ### The program counter -/

/-- What PC can be after an instruction (R26): `pc0` at a fault and in the first phase of `Fx0A`, the next instruction or
the one after it, a jump target, or a return address on the stack. -/
inductive NextPC (s : State) : Word → Prop where
  | same : NextPC s s.PC
  | next : NextPC s (s.PC + 2)
  | skip : NextPC s (s.PC + 4)
  | target (nnn : Addr12) : NextPC s (zext16 nnn)
  | indexed (v : Byte) (nnn : Addr12) : NextPC s (v.zeroExtend 16 + zext16 nnn)
  | popped (j : Fin 16) (h : j.val < s.SP.val) : NextPC s (s.STACK.get j)

theorem NextPC.skipIf {s u : State} (c : Bool) (hu : u.PC = s.PC) : NextPC s (u.skipIf c).PC := by
  rw [State.skipIf_PC, hu]
  cases c
  · exact .next
  · exact .skip

theorem execSys_nextPC {s t : State} {nnn : Addr12} (h : execSys nnn s = .next t) : NextPC s t.PC := by
  unfold execSys at h
  split at h <;> cases h
  · exact .target nnn
  · exact .next

theorem execRet_nextPC {s t : State} (h : execRet s = .next t) : NextPC s t.PC := by
  unfold execRet at h
  split at h
  · next target u hpop =>
    obtain ⟨hsp, rfl, rfl⟩ := State.pop_ok hpop
    cases h
    exact .popped _ (Nat.sub_lt hsp Nat.one_pos)
  · cases h; exact .same

theorem execCall_nextPC {s t : State} {nnn : Addr12} (h : execCall nnn s = .next t) : NextPC s t.PC := by
  unfold execCall at h
  split at h <;> cases h
  · exact .target nnn
  · exact .same

theorem execDrw_nextPC {s t : State} {x y : RegIx} {n : BitVec 4} (h : execDrw x y n s = .next t) : NextPC s t.PC := by
  unfold execDrw at h
  split at h <;> cases h
  · exact .same
  · exact .next

theorem execLdF_nextPC {s t : State} {x : RegIx} (h : execLdF x s = .next t) : NextPC s t.PC := by
  unfold execLdF at h
  split at h <;> cases h <;> exact .next

theorem State.storeAtI_nextPC {s t : State} {vs : List Byte} {i : Instr} (h : s.storeAtI vs i = .next t) :
    NextPC s t.PC := by
  unfold State.storeAtI at h
  split at h <;> cases h
  · exact .same
  · exact .next

theorem execLdMemLoad_nextPC {s t : State} {x : RegIx} (h : execLdMemLoad x s = .next t) : NextPC s t.PC := by
  unfold execLdMemLoad at h
  split at h <;> cases h
  · exact .same
  · rw [State.setRegsFrom_frame]; exact .next

theorem exec_nextPC {i : Instr} {s t : State} (h : exec i s = .next t) : NextPC s t.PC := by
  cases i
  case sys => exact execSys_nextPC h
  case ret => exact execRet_nextPC h
  case call => exact execCall_nextPC h
  case drw => exact execDrw_nextPC h
  case ldF => exact execLdF_nextPC h
  case ldB | ldMemStore => exact State.storeAtI_nextPC h
  case ldMemLoad => exact execLdMemLoad_nextPC h
  case jp nnn => cases h; exact .target nnn
  case jpV0 nnn => cases h; exact .indexed _ nnn
  case seImm | sneImm | seReg | sneReg => cases h; exact .skipIf _ rfl
  case skp | sknp => cases h; exact .skipIf _ (by rw [State.pollKey_frame])
  case ldVxK => cases h; exact .same
  all_goals cases h; exact .next

/-- R26: from a PC that was fetched, with return addresses at most 0x1000, the highest next PC is that of `Bnnn`. -/
theorem NextPC.le {s : State} {p : Word} (h : NextPC s p) (hpc : s.PC.toNat ≤ 0xFFE)
    (hstack : ∀ j : Fin 16, j.val < s.SP.val → (s.STACK.get j).toNat ≤ 0x1000) : p.toNat ≤ 0x10FE := by
  cases h with
  | same => omega
  | next => bv_omega
  | skip => bv_omega
  | target nnn => have := nnn.isLt; rw [toNat_zext16]; omega
  | indexed v nnn =>
    have := v.isLt
    have := nnn.isLt
    have hv : (v.zeroExtend 16).toNat = v.toNat := BitVec.toNat_setWidth_of_le (by decide)
    rw [BitVec.toNat_add, hv, toNat_zext16]
    omega
  | popped j hj => have := hstack j hj; omega

/-! ### The stack -/

/-- A push keeps a bound on the return addresses that the pushed one meets. -/
theorem State.push_keeps_le {s t : State} {v : Word} {b : Nat} (h : s.push v = .ok t) (hv : v.toNat ≤ b)
    (hstack : ∀ j : Fin 16, j.val < s.SP.val → (s.STACK.get j).toNat ≤ b) (j : Fin 16) (hj : j.val < t.SP.val) :
    (t.STACK.get j).toNat ≤ b := by
  obtain ⟨hsp, rfl⟩ := State.push_ok h
  have hj : j.val < s.SP.val + 1 := hj
  rw [get_set_STACK]
  split
  · exact hv
  · exact hstack j (by omega)

theorem execCall_keeps_stack_le {s t : State} {nnn : Addr12} (hpc : s.PC.toNat ≤ 0xFFE)
    (hstack : ∀ j : Fin 16, j.val < s.SP.val → (s.STACK.get j).toNat ≤ 0x1000) (h : execCall nnn s = .next t) :
    ∀ j : Fin 16, j.val < t.SP.val → (t.STACK.get j).toNat ≤ 0x1000 := by
  unfold execCall at h
  split at h <;> cases h
  · next u hpush => exact State.push_keeps_le (t := u) hpush (by bv_omega) hstack
  · exact hstack

theorem execRet_keeps_stack_le {s t : State} {b : Nat}
    (hstack : ∀ j : Fin 16, j.val < s.SP.val → (s.STACK.get j).toNat ≤ b) (h : execRet s = .next t) :
    ∀ j : Fin 16, j.val < t.SP.val → (t.STACK.get j).toNat ≤ b := by
  unfold execRet at h
  split at h
  · next target u hpop =>
    obtain ⟨_, _, rfl⟩ := State.pop_ok hpop
    cases h
    exact fun j hj => hstack j (Nat.lt_of_lt_of_le hj (Nat.sub_le _ _))
  · cases h; exact hstack

theorem exec_keeps_stack_le {i : Instr} {s t : State} (hpc : s.PC.toNat ≤ 0xFFE)
    (hstack : ∀ j : Fin 16, j.val < s.SP.val → (s.STACK.get j).toNat ≤ 0x1000) (h : exec i s = .next t) :
    ∀ j : Fin 16, j.val < t.SP.val → (t.STACK.get j).toNat ≤ 0x1000 := by
  by_cases hret : i = .ret
  · subst hret; exact execRet_keeps_stack_le hstack h
  by_cases hcall : ∃ nnn, i = .call nnn
  · obtain ⟨nnn, rfl⟩ := hcall; exact execCall_keeps_stack_le hpc hstack h
  · obtain ⟨hSP, hSTACK⟩ := Proofs.onlyCallAndReturnTouchStack i s t h hret (not_exists.mp hcall)
    rw [hSP, hSTACK]; exact hstack

/-! ### The run state -/

/-- An instruction leaves the run state, or begins a key wait that holds its own PC, or halts with a record that names PC
(R221, R237). -/
theorem exec_run_cases {i : Instr} {s t : State} (h : exec i s = .next t) :
    t.run = s.run ∨ (∃ x, t.run = .waitKey x t.PC ∧ t.PC = s.PC) ∨ ∃ r, t.run = .halted r ∧ r.pc = t.PC := by
  rcases exec_outcome i s with ⟨k, -, hfault⟩ | ⟨-, u, hnext, hrun⟩
  · rw [hfault, State.raise_eq] at h
    cases h
    exact .inr (.inr ⟨_, rfl, rfl⟩)
  · cases hnext.symm.trans h
    rcases hrun with hrun | ⟨x, rfl, -⟩
    · exact .inl hrun
    · cases h; exact .inr (.inl ⟨x, rfl, rfl⟩)

end Sys2Proof.Machine

namespace Sys2Proof.Safety

open Sys2Proof.Machine

/-! ### What keeps the invariant -/

/-- A machine ready to run at the program base, with canonical memory and an empty stack. -/
theorem Inv.of_programStart {s : State} (hm : s.MEM.wf) (hpc : s.PC = 0x200) (hsp : s.SP = 0)
    (hrun : s.run = .running) : Inv s where
  memory := hm
  pc := by rw [hpc]; decide
  stack j hj := by rw [hsp] at hj; exact absurd hj (Nat.not_lt_zero _)
  wait x pc0 h := by rw [hrun] at h; cases h
  halted r h := by rw [hrun] at h; cases h

theorem Inv.of_construct {p : Params} {image : List Byte} {s : State} (h : construct p image = some s) : Inv s := by
  unfold construct at h
  split at h <;> cases h
  refine .of_programStart ?_ rfl rfl rfl
  dsimp only
  exact Memory.wf_tabulate (p.initialByte image)

theorem Inv.exec {i : Instr} {s t : State} (hs : Inv s) (hrun : s.run = .running) (hpc : s.PC.toNat ≤ 0xFFE)
    (h : exec i s = .next t) : Inv t where
  memory := exec_keeps_wf hs.memory h
  pc := (exec_nextPC h).le hpc hs.stack
  stack := exec_keeps_stack_le hpc hs.stack h
  wait x pc0 hw := by
    rcases exec_run_cases h with hr | ⟨y, hr, hPC⟩ | ⟨r, hr, -⟩
    · rw [hr, hrun] at hw; cases hw
    · rw [hr] at hw; cases hw; exact ⟨rfl, hPC ▸ hpc⟩
    · rw [hr] at hw; cases hw
  halted r hh := by
    rcases exec_run_cases h with hr | ⟨y, hr, -⟩ | ⟨r', hr, hpc'⟩
    · rw [hr, hrun] at hh; cases hh
    · rw [hr] at hh; cases hh
    · rw [hr] at hh; cases hh; exact hpc'

theorem Inv.environmentTurn {s : State} (hs : Inv s) (e : EnvTurn) : Inv (s.environmentTurn e) :=
  ⟨hs.memory, hs.pc, hs.stack, hs.wait, hs.halted⟩

theorem Inv.afterStep {s : State} (hs : Inv s) (e : EnvTurn) : Inv (s.afterStep e) := by
  rcases s.afterStep_cases e with ⟨h, -⟩ | ⟨h, -⟩ <;> rw [h]
  · exact hs.environmentTurn e
  · exact hs

theorem Inv.request {s : State} (hs : Inv s) (r : HostRequest) : Inv { s with host := r } :=
  ⟨hs.memory, hs.pc, hs.stack, hs.wait, hs.halted⟩

theorem Inv.halt {s : State} (hs : Inv s) (k : FaultKind) (raw : Option Word) : Inv (s.halt k raw) where
  memory := hs.memory
  pc := hs.pc
  stack := hs.stack
  wait := nofun
  halted _ h := by cases h; rfl

theorem Inv.stop {s : State} (hs : Inv s) : Inv s.stop := by
  have hstopped : Inv { s with run := .stopped, host := .step } :=
    ⟨hs.memory, hs.pc, hs.stack, nofun, nofun⟩
  unfold State.stop
  split
  case h_1 | h_2 => exact hstopped
  case h_3 | h_4 => exact hs

/-- A key event resumes after the `Fx0A`, whose PC was fetched. -/
theorem Inv.deliverKey {s : State} (hs : Inv s) (x : RegIx) {pc0 : Word} (k : BitVec 4) (hpc : pc0.toNat ≤ 0xFFE) :
    Inv (s.deliverKey x pc0 k) where
  memory := hs.memory
  pc := show (pc0 + 2).toNat ≤ 0x10FE by bv_omega
  stack := hs.stack
  wait := nofun
  halted := nofun

theorem Inv.waitTurn {s : State} (hs : Inv s) (e : EnvTurn) {x : RegIx} {pc0 : Word} (hw : s.run = .waitKey x pc0) :
    Inv (s.waitTurn e x pc0) := by
  unfold State.waitTurn
  split
  · exact (hs.environmentTurn e).deliverKey x _ (hs.wait x pc0 hw).2
  · exact hs.environmentTurn e

/-- Whatever a step does, and under any environment turn, it keeps the invariant. -/
theorem Inv.stepWith {e : EnvTurn} {s t : State} (hs : Inv s) (h : stepWith e s = .next t) : Inv t := by
  rcases stepWith_next h with ⟨-, rfl, -⟩ | ⟨-, -, k, raw, -, rfl⟩ | ⟨-, hrun, i, u, hfetch, hexec, rfl⟩ |
    ⟨-, x, pc0, hw, rfl⟩
  · exact hs.stop
  · exact hs.halt k raw
  · exact (hs.exec hrun (State.PC_le_of_fetchDecode_ok hfetch) hexec).afterStep e
  · exact hs.waitTurn e hw

theorem Inv.move {s t : State} (hs : Inv s) (m : Move s t) : Inv t := by
  cases m with
  | step e h => exact hs.stepWith h
  | request r => exact hs.request r

theorem Inv.reaches {s t : State} (hs : Inv s) (h : Reaches s t) : Inv t := by
  induction h with
  | refl => exact hs
  | move _ m ih => exact ih.move m

end Sys2Proof.Safety

namespace Sys2Proof.Proofs

open Sys2Proof.Machine Sys2Proof.Safety

/-- Settles O26: such an instruction leaves the whole list of cells. -/
theorem onlyStoresChangeMemory : Obligations.OnlyStoresChangeMemory := by
  intro i s t h hB hStore a
  rw [exec_MEM_of_not_store h hB hStore]

/-- Settles O7. -/
theorem fetchIsBigEndianAndChecked : Obligations.FetchIsBigEndianAndChecked :=
  fun s => ⟨fun h => ⟨State.fetch_ok h, toNat_wordAtPC s⟩, State.fetch_fault⟩

/-- Settles O18. -/
theorem environmentTouchesOnlyItsOwn : Obligations.EnvironmentTouchesOnlyItsOwn := by
  intro e s hrun
  rw [State.afterStep_of_running e hrun]
  exact ⟨toNat_ticks e.dtTicks s.DT, toNat_ticks e.stTicks s.ST, rfl, rfl⟩

/-- Settles O22. -/
theorem resetMeetsInvariant : Obligations.ResetMeetsInvariant :=
  .of_programStart ⟨.nil, fun _ h => absurd h List.not_mem_nil⟩ rfl rfl rfl

/-- Settles O23: `step` is the step under the free environment turn, and a step under any turn keeps the invariant. -/
theorem stepKeepsInvariant : Obligations.StepKeepsInvariant := by
  rintro s t hs (h | ⟨e, h⟩)
  · exact hs.stepWith (e := Config.envTurn s.turn) h
  · exact hs.stepWith h

/-- Settles O24, by induction on the moves. -/
theorem reachableStatesMeetInvariant : Obligations.ReachableStatesMeetInvariant :=
  fun _ _ _ _ hc hr => (Inv.of_construct hc).reaches hr

end Sys2Proof.Proofs
end

section
/-! The decoder and the encoder (spec/30_encoding.md R80 to R90), and the word a step runs (R100). First which words decode
to an instruction and which to none, then the rows of the opcode table, and the fetch; then the statements. -/

namespace Sys2Proof

open Sys2Proof.Safety

/-! ### Decoding an encoded instruction -/

theorem decode_wordXYN_5 (x y : RegIx) (n : BitVec 4) : decode (wordXYN 0x5 x y n) = .ok (.seReg x y) := by
  simp [decode]

theorem decode_wordXYN_9 (x y : RegIx) (n : BitVec 4) : decode (wordXYN 0x9 x y n) = .ok (.sneReg x y) := by
  simp [decode]

/-- R86: the third case of family 0. -/
theorem decode_wordNNN_0 {nnn : Addr12} (hcls : nnn ≠ 0x0E0) (hret : nnn ≠ 0x0EE) :
    decode (wordNNN 0x0 nnn) = .ok (.sys nnn) := by
  simp only [decode, decode0, fieldF_wordNNN, fieldNNN_wordNNN, if_neg hcls, if_neg hret]
  rfl

theorem wellFormed_sys_iff (nnn : Addr12) : (Instr.sys nnn).wellFormed = true ↔ nnn ≠ 0x0E0 ∧ nnn ≠ 0x0EE := by
  simp only [Instr.wellFormed, Bool.and_eq_true, bne_iff_ne]

/-- R84, R85: the decoder finds the family and the operands where the format put them. -/
theorem decode_encode {i : Instr} (hi : i.wellFormed = true) : decode (encode i) = .ok i := by
  cases i
  case cls | ret => rfl
  case sys nnn =>
    obtain ⟨hcls, hret⟩ := (wellFormed_sys_iff nnn).mp hi
    exact decode_wordNNN_0 hcls hret
  case seReg x y => exact decode_wordXYN_5 x y 0
  case sneReg x y => exact decode_wordXYN_9 x y 0
  case jp | call | ldI | jpV0 | seImm | sneImm | ldImm | addImm | rnd | drw => simp [encode, decode]
  case ldReg | orReg | andReg | xorReg | addReg | subReg | shrReg | subnReg | shlReg =>
    simp [encode, decode, decode8]
  case skp | sknp => simp [encode, decode, decodeE]
  case ldVxDT | ldVxK | ldDTVx | ldSTVx | addI | ldF | ldB | ldMemStore | ldMemLoad =>
    simp [encode, decode, decodeF]

/-! ### The words of an instruction

In the arm of the decoder that answers an instruction, the word's family and function code are known, and its other fields
are the operands: with these the format builds the word again. -/

theorem wordNNN_eq {w : Word} {f : BitVec 4} (hf : (fieldF w).toNat = f.toNat) : wordNNN f (fieldNNN w) = w := by
  rw [← BitVec.eq_of_toNat_eq hf, ← eq_wordNNN]

theorem wordXKK_eq {w : Word} {f : BitVec 4} {kk : Byte} (hf : (fieldF w).toNat = f.toNat)
    (hkk : (fieldKK w).toNat = kk.toNat) : wordXKK f (fieldX w) kk = w := by
  rw [← BitVec.eq_of_toNat_eq hf, ← BitVec.eq_of_toNat_eq hkk, ← eq_wordXKK]

theorem wordXYN_eq {w : Word} {f n : BitVec 4} (hf : (fieldF w).toNat = f.toNat)
    (hn : (fieldN w).toNat = n.toNat) : wordXYN f (fieldX w) (fieldY w) n = w := by
  rw [← BitVec.eq_of_toNat_eq hf, ← BitVec.eq_of_toNat_eq hn, ← eq_wordXYN]

/-- The words of an instruction: its encoding, and for `5xyN` and `9xyN` every N (R88). -/
inductive WordOf : Instr → Word → Prop where
  | canonical {i : Instr} {w : Word} (hi : i.wellFormed = true) (hw : encode i = w) : WordOf i w
  | seReg {x y : RegIx} {n : BitVec 4} {w : Word} (hw : wordXYN 0x5 x y n = w) : WordOf (.seReg x y) w
  | sneReg {x y : RegIx} {n : BitVec 4} {w : Word} (hw : wordXYN 0x9 x y n = w) : WordOf (.sneReg x y) w

theorem wordOf_decode0 {w : Word} (hf : (fieldF w).toNat = 0x0) : WordOf (decode0 w) w := by
  have hw : wordNNN 0x0 (fieldNNN w) = w := wordNNN_eq hf
  unfold decode0
  split
  case isTrue h => exact .canonical rfl (by rw [← hw, h]; rfl)
  case isFalse hcls =>
    split
    case isTrue h => exact .canonical rfl (by rw [← hw, h]; rfl)
    case isFalse hret => exact .canonical ((wellFormed_sys_iff _).mpr ⟨hcls, hret⟩) hw

theorem wordOf_of_decode8 {w : Word} {i : Instr} (hf : (fieldF w).toNat = 0x8) (h : decode8 w = .ok i) :
    WordOf i w := by
  unfold decode8 at h
  split at h <;> cases h
  all_goals next hn => exact .canonical rfl (wordXYN_eq hf hn)

theorem wordOf_of_decodeE {w : Word} {i : Instr} (hf : (fieldF w).toNat = 0xE) (h : decodeE w = .ok i) :
    WordOf i w := by
  unfold decodeE at h
  split at h <;> cases h
  all_goals next hkk => exact .canonical rfl (wordXKK_eq hf hkk)

theorem wordOf_of_decodeF {w : Word} {i : Instr} (hf : (fieldF w).toNat = 0xF) (h : decodeF w = .ok i) :
    WordOf i w := by
  unfold decodeF at h
  split at h <;> cases h
  all_goals next hkk => exact .canonical rfl (wordXKK_eq hf hkk)

/-- A word that decodes to an instruction is one of the instruction's words. -/
theorem wordOf_of_decode {w : Word} {i : Instr} (h : decode w = .ok i) : WordOf i w := by
  unfold decode at h
  split at h
  case h_1 hf => cases h; exact wordOf_decode0 hf
  case h_2 hf | h_3 hf | h_11 hf | h_12 hf => cases h; exact .canonical rfl (wordNNN_eq hf)
  case h_4 hf | h_5 hf | h_7 hf | h_8 hf | h_13 hf => cases h; exact .canonical rfl (wordXKK_eq hf rfl)
  case h_6 hf => cases h; exact .seReg (wordXYN_eq hf rfl)
  case h_10 hf => cases h; exact .sneReg (wordXYN_eq hf rfl)
  case h_14 hf => cases h; exact .canonical rfl (wordXYN_eq hf rfl)
  case h_9 hf => exact wordOf_of_decode8 hf h
  case h_15 hf => exact wordOf_of_decodeE hf h
  case h_16 =>
    have hf : (fieldF w).toNat = 0xF := by have hlt := (fieldF w).isLt; grind
    exact wordOf_of_decodeF hf h

/-! ### Illegal words -/

/-- The three rows of R87 in the fields the decoder reads. -/
theorem illegalWord_iff (w : Word) : illegalWord w ↔
    (fieldF w).toNat = 0x8 ∧ (fieldN w).toNat ∈ [0x8, 0x9, 0xA, 0xB, 0xC, 0xD, 0xF] ∨
    (fieldF w).toNat = 0xE ∧ (fieldKK w).toNat ∉ [0x9E, 0xA1] ∨
    (fieldF w).toNat = 0xF ∧
      (fieldKK w).toNat ∉ [0x07, 0x0A, 0x15, 0x18, 0x1E, 0x29, 0x33, 0x55, 0x65] := by
  rw [toNat_fieldF, toNat_fieldN, toNat_fieldKK, illegalWord]

theorem decode8_error_iff (w : Word) :
    (∃ err, decode8 w = .error err) ↔ (fieldN w).toNat ∈ [0x8, 0x9, 0xA, 0xB, 0xC, 0xD, 0xF] := by
  have hlt := (fieldN w).isLt
  unfold decode8
  split
  case h_10 => exact iff_of_true ⟨_, rfl⟩ (by simp only [List.mem_cons]; grind)
  all_goals next hn => simp [hn]

theorem decodeE_error_iff (w : Word) : (∃ err, decodeE w = .error err) ↔ (fieldKK w).toNat ∉ [0x9E, 0xA1] := by
  unfold decodeE
  split
  case h_3 => exact iff_of_true ⟨_, rfl⟩ (by simp only [List.mem_cons]; grind)
  all_goals next hkk => simp [hkk]

theorem decodeF_error_iff (w : Word) : (∃ err, decodeF w = .error err) ↔
    (fieldKK w).toNat ∉ [0x07, 0x0A, 0x15, 0x18, 0x1E, 0x29, 0x33, 0x55, 0x65] := by
  unfold decodeF
  split
  case h_10 => exact iff_of_true ⟨_, rfl⟩ (by simp only [List.mem_cons]; grind)
  all_goals next hkk => simp [hkk]

/-- R87: only families 8, E and F have illegal words. -/
theorem illegalWord_iff_decode_error (w : Word) : illegalWord w ↔ ∃ err, decode w = .error err := by
  rw [illegalWord_iff]
  unfold decode
  split
  case h_9 hf => simp [hf, decode8_error_iff]
  case h_15 hf => simp [hf, decodeE_error_iff]
  case h_16 =>
    have hf : (fieldF w).toNat = 0xF := by have hlt := (fieldF w).isLt; grind
    simp [hf, decodeF_error_iff]
  all_goals next hf => simp [hf]

/-! ### The rows of the opcode table -/

/-- The word of an instruction matches the instruction's row, whatever its operands. -/
theorem row_covers_encode (i : Instr) : i.row.covers (encode i) = true := by
  cases i
  case cls => exact Laws.EncodeMatchesRow.cls
  case ret => exact Laws.EncodeMatchesRow.ret
  case sys | jp | call | ldI | jpV0 => exact beq_iff_eq.mpr (Laws.EncodeMatchesRow.wordNNN_masked _ _)
  case seImm | sneImm | ldImm | addImm | rnd => exact beq_iff_eq.mpr (Laws.EncodeMatchesRow.wordXKK_masked _ _ _)
  case seReg | sneReg | drw => exact beq_iff_eq.mpr (Laws.EncodeMatchesRow.wordXYN_masked _ _ _ _)
  case ldReg | orReg | andReg | xorReg | addReg | subReg | shrReg | subnReg | shlReg =>
    exact beq_iff_eq.mpr (Laws.EncodeMatchesRow.wordALU_masked _ _ _ _)
  all_goals exact beq_iff_eq.mpr (Laws.EncodeMatchesRow.wordXF_masked _ _ _)

theorem WordOf.row_covers {i : Instr} {w : Word} (h : WordOf i w) : i.row.covers w = true := by
  cases h with
  | canonical _ hw => exact hw ▸ row_covers_encode i
  | seReg hw | sneReg hw => exact hw ▸ beq_iff_eq.mpr (Laws.EncodeMatchesRow.wordXYN_masked _ _ _ _)

/-! A word that matches a row has the row's bits in every field that the row's mask covers whole. -/

theorem fieldF_and (v w : Word) : fieldF (v &&& w) = fieldF v &&& fieldF w := BitVec.extractLsb'_and ..
theorem fieldN_and (v w : Word) : fieldN (v &&& w) = fieldN v &&& fieldN w := BitVec.extractLsb'_and ..
theorem fieldKK_and (v w : Word) : fieldKK (v &&& w) = fieldKK v &&& fieldKK w := BitVec.extractLsb'_and ..

theorem fieldF_of_covers {m p w : Word} (h : OpcodeRow.covers ⟨m, p⟩ w = true) (hm : fieldF m = BitVec.allOnes 4) :
    fieldF w = fieldF p := by
  have hw : w &&& m = p := beq_iff_eq.mp h
  rw [← hw, fieldF_and, hm, BitVec.and_allOnes]

theorem fieldN_of_covers {m p w : Word} (h : OpcodeRow.covers ⟨m, p⟩ w = true) (hm : fieldN m = BitVec.allOnes 4) :
    fieldN w = fieldN p := by
  have hw : w &&& m = p := beq_iff_eq.mp h
  rw [← hw, fieldN_and, hm, BitVec.and_allOnes]

theorem fieldKK_of_covers {m p w : Word} (h : OpcodeRow.covers ⟨m, p⟩ w = true) (hm : fieldKK m = BitVec.allOnes 8) :
    fieldKK w = fieldKK p := by
  have hw : w &&& m = p := beq_iff_eq.mp h
  rw [← hw, fieldKK_and, hm, BitVec.and_allOnes]

theorem eq_of_covers_allOnes {p w : Word} (h : OpcodeRow.covers ⟨BitVec.allOnes 16, p⟩ w = true) : w = p := by
  have hw : w &&& BitVec.allOnes 16 = p := beq_iff_eq.mp h
  rw [← hw, BitVec.and_allOnes]

theorem decode0_cases (w : Word) :
    (decode0 w).row = (Instr.sys 0).row ∨ decode0 w = .cls ∨ decode0 w = .ret := by
  unfold decode0
  split
  case isTrue => exact .inr (.inl rfl)
  case isFalse =>
    split
    case isTrue => exact .inr (.inr rfl)
    case isFalse => exact .inl rfl

theorem decode_of_sys_row_covers {w : Word} (h : (Instr.sys 0).row.covers w = true) :
    decode w = .ok (decode0 w) := by
  rw [decode, fieldF_of_covers h rfl]; rfl

/-- Every row but that of SYS holds only words of its own instructions (R86, R90). -/
theorem map_row_decode_of_covers {i : Instr} {w : Word} (hsys : ∀ nnn, i ≠ .sys nnn) (h : i.row.covers w = true) :
    (decode w).map Instr.row = .ok i.row := by
  cases i
  case sys nnn => exact absurd rfl (hsys nnn)
  case cls | ret => rw [eq_of_covers_allOnes h]; rfl
  case jp | call | seImm | sneImm | seReg | ldImm | addImm | sneReg | ldI | jpV0 | rnd | drw =>
    rw [decode, fieldF_of_covers h rfl]; rfl
  case ldReg | orReg | andReg | xorReg | addReg | subReg | shrReg | subnReg | shlReg =>
    have hd : decode w = decode8 w := by rw [decode, fieldF_of_covers h rfl]; rfl
    rw [hd, decode8, fieldN_of_covers h rfl]; rfl
  case skp | sknp =>
    have hd : decode w = decodeE w := by rw [decode, fieldF_of_covers h rfl]; rfl
    rw [hd, decodeE, fieldKK_of_covers h rfl]; rfl
  case ldVxDT | ldVxK | ldDTVx | ldSTVx | addI | ldF | ldB | ldMemStore | ldMemLoad =>
    have hd : decode w = decodeF w := by rw [decode, fieldF_of_covers h rfl]; rfl
    rw [hd, decodeF, fieldKK_of_covers h rfl]; rfl

theorem exists_decode_of_row_covers {i : Instr} {w : Word} (h : i.row.covers w = true) :
    ∃ j, decode w = .ok j ∧ (j.row = i.row ∨ (i.row = (Instr.sys 0).row ∧ (j = .cls ∨ j = .ret))) := by
  by_cases hsys : ∃ nnn, i = .sys nnn
  · obtain ⟨nnn, rfl⟩ := hsys
    exact ⟨_, decode_of_sys_row_covers h, (decode0_cases w).imp_right fun hj => ⟨rfl, hj⟩⟩
  · have hrow := map_row_decode_of_covers (not_exists.mp hsys) h
    cases hd : decode w with
    | error err => rw [hd] at hrow; cases hrow
    | ok j => rw [hd] at hrow; exact ⟨j, rfl, .inl (Except.ok.inj hrow)⟩

end Sys2Proof

namespace Sys2Proof.Machine

open Sys2Proof.Safety

/-! ### The word a step runs -/

/-- The bytes of a word stored in memory read back as the word (R53). -/
theorem Memory.readWord_writeBytes_bytesOfWord (m : Memory) (a : Nat) (w : Word) :
    (m.writeBytes a (bytesOfWord w)).readWord a = w := by
  simp [Memory.readWord, Memory.read_writeBytes, bytesOfWord]

theorem wordAtPC_withFetchWord {s : State} (nbits w : Nat) (h : s.PC.toNat + 1 ≤ 0xFFF) :
    wordAtPC (s.withFetchWord nbits w) = tableWord nbits w := by
  have hroom : s.PC.toNat + 1 < Config.memSize := Nat.lt_succ_of_le h
  rw [← readWord_eq_wordAtPC]
  simp only [State.withFetchWord, Memory.placeWord, if_pos hroom, Memory.readWord_writeBytes_bytesOfWord]

theorem decode_tableWord_of_decodeTableWord {nbits w : Nat} {i : Instr} (h : decodeTableWord nbits w = some i) :
    decode (tableWord nbits w) = .ok i := by
  simp only [decodeTableWord, bytesOfWord, decodeBytes, wordOfBytes_bytes] at h
  cases hd : decode (tableWord nbits w) with
  | error err => simp [hd, Except.map] at h
  | ok j => simpa [hd, Except.map] using h

theorem State.fetchDecode_of_decode {s : State} {i : Instr} (hpc : s.PC.toNat + 1 ≤ 0xFFF)
    (hi : decode (wordAtPC s) = .ok i) : s.fetchDecode = .ok i := by
  rw [s.fetchDecode_ok hpc, hi]

/-- A step request in RUNNING whose instruction goes on (R100, R66). -/
theorem stepWith_of_fetchDecode {e : EnvTurn} {s t : State} {i : Instr} (hrun : s.run = .running)
    (hhost : s.host = .step) (hfetch : s.fetchDecode = .ok i) (hexec : exec i s = .next t) :
    stepWith e s = .next (t.afterStep e) := by
  simp only [stepWith, hrun, hhost, stepRunning, hfetch, hexec]

end Sys2Proof.Machine

namespace Sys2Proof.Proofs

open Sys2Proof.Machine Sys2Proof.Safety

/-- Settles O2: the two bytes of the encoding make its word again, and the word decodes to the instruction. -/
theorem decodeOfEncodeIsIdentity : Obligations.DecodeOfEncodeIsIdentity := by
  intro i rest hi
  have hbytes : decodeBytes (encodeBytes i ++ rest) = (decode (encode i)).map fun j => (j, rest) := by
    simp only [encodeBytes, bytesOfWord, List.cons_append, List.nil_append, decodeBytes, wordOfBytes_bytes]
  rw [hbytes, decode_encode hi]
  rfl

/-- Settles O3: a decoded word is one of its instruction's words. -/
theorem onlySkipNibbleIsDontCare : Obligations.OnlySkipNibbleIsDontCare := by
  refine ⟨fun x y n => ⟨decode_wordXYN_5 x y n, decode_wordXYN_9 x y n⟩, fun _ _ => ⟨rfl, rfl⟩, fun w i h => ?_⟩
  cases wordOf_of_decode h with
  | canonical hi hw => exact ⟨hi, fun _ _ => hw⟩
  | seReg => exact ⟨rfl, fun hse _ => absurd rfl (hse _ _)⟩
  | sneReg => exact ⟨rfl, fun _ hsne => absurd rfl (hsne _ _)⟩

/-- Settles O5: a decoded word is one of its instruction's words, and these match its row; the other way, the row's fixed
bits lead the decoder to the row's arm. -/
theorem decodeFollowsOpcodeTable : Obligations.DecodeFollowsOpcodeTable :=
  ⟨fun _ _ h => (wordOf_of_decode h).row_covers, fun _ _ => exists_decode_of_row_covers⟩

/-- Settles O6, family by family. -/
theorem illegalWordsAreThoseOfR87 : Obligations.IllegalWordsAreThoseOfR87 := illegalWord_iff_decode_error

/-- Settles O8. -/
theorem stepRunsDecodedInstruction : Obligations.StepRunsDecodedInstruction :=
  ⟨fun _ _ _ _ hrun hhost hpc hi => stepWith_of_fetchDecode hrun hhost (State.fetchDecode_of_decode hpc hi),
    fun _ => rfl⟩

/-- Settles O9: the placed word is the word at PC, and placing it changes neither PC nor the turn count. -/
theorem placedWordRunsNext : Obligations.PlacedWordRunsNext := by
  intro s w i hpc hw
  have hfetch : (s.withFetchWord 16 w).fetchDecode = .ok i := by
    refine State.fetchDecode_of_decode hpc ?_
    rw [wordAtPC_withFetchWord 16 w hpc, decode_tableWord_of_decodeTableWord hw]
  exact ⟨hfetch, fun _ => stepWith_of_fetchDecode rfl rfl hfetch⟩

/-- Settles O4. -/
theorem familyZeroPrecedence : Obligations.FamilyZeroPrecedence := ⟨rfl, rfl, fun _ => decode_wordNNN_0⟩

/-- Settles O1. -/
theorem decodeSampleWords : Obligations.DecodeSampleWords := by
  unfold Obligations.DecodeSampleWords
  decide

end Sys2Proof.Proofs
end

section
/-! Control transfer (spec/40_control_transfer.md R110, R112, R116): RET with an entry to pop and with none, and RET right
after CALL. -/

namespace Sys2Proof.Machine

theorem State.pop_of_pos {s : State} (h : 0 < s.SP.val) :
    s.pop = .ok (s.STACK.get ⟨s.SP.val - 1, by omega⟩, { s with SP := ⟨s.SP.val - 1, by omega⟩ }) := dif_pos h

theorem State.pop_empty {s : State} (h : s.SP = 0) : s.pop = .error (.stackFault .underflow) :=
  dif_neg (by simp [h])

/-- `00EE` with an entry on the stack (R110, R29). -/
theorem exec_ret_of_pos {s : State} (h : 0 < s.SP.val) :
    exec .ret s = .next { s with
      PC := s.STACK.get ⟨s.SP.val - 1, by omega⟩
      SP := ⟨s.SP.val - 1, by omega⟩ } := by
  simp only [exec, execRet, State.pop_of_pos h, State.goto]

/-- `00EE` on an empty stack (R234). -/
theorem exec_ret_empty {s : State} (h : s.SP = 0) : exec .ret s = s.raise (.stackFault .underflow) .ret := by
  simp only [exec, execRet, State.pop_empty h]

/-- `00EE` on the state a CALL with return address `v` leaves, where CALL has set PC to `p` (R116). -/
theorem exec_ret_of_pushed {s : State} (p v : Word) (h : s.SP.val < 16) :
    exec .ret { s with PC := p, SP := ⟨s.SP.val + 1, by omega⟩, STACK := s.STACK.set s.SP.val v h } =
      .next { s with PC := v, STACK := s.STACK.set s.SP.val v h } := by
  have htop : (s.STACK.set s.SP.val v h).get ⟨s.SP.val, h⟩ = v := by rw [get_set_STACK, if_pos rfl]
  rw [exec_ret_of_pos (Nat.succ_pos _)]
  simp only [Nat.add_sub_cancel, htop]

end Sys2Proof.Machine

namespace Sys2Proof.Proofs

open Sys2Proof.Machine Sys2Proof.Safety

/-- Settles O29: a pop that finds an entry, and one that finds none. -/
theorem returnPopsIntoPC : Obligations.ReturnPopsIntoPC := by
  intro s
  constructor
  · intro hpos
    exact ⟨_, exec_ret_of_pos hpos, rfl, Nat.sub_add_cancel hpos, rfl⟩
  · intro hempty
    exact (exec_ret_empty hempty).trans (State.raise_eq s _ _)

/-- Settles O31: the slot RET reads is the one CALL wrote, and no other slot was written. -/
theorem callThenReturnComesBack : Obligations.CallThenReturnComesBack := by
  intro nnn s hroom
  refine ⟨_, _, exec_call_of_lt nnn hroom, exec_ret_of_pushed _ _ hroom, rfl, rfl, ?_⟩
  intro j hj
  exact (get_set_STACK s.STACK (s.PC + 2) hroom j).trans (if_neg hj)

/-- Settles O32. -/
theorem jumpSetsPC : Obligations.JumpSetsPC :=
  fun nnn s => ⟨s.goto (zext16 nnn), rfl, toNat_zext16 nnn, rfl⟩

end Sys2Proof.Proofs
end

section
/-! Register skips (spec/41_skips.md R130 to R134): what a skip on a condition does, said once, then SE and SNE as its four
instances. -/

namespace Sys2Proof.Machine

/-- The instruction `i` completes, skips when `p` holds, does not skip when `q` holds, and changes nothing but PC (R26, R130). -/
def SkipsOn (i : Instr) (s : State) (p q : Prop) : Prop :=
  ∃ t, exec i s = .next t ∧ (p → t.PC = s.PC + 4) ∧ (q → t.PC = s.PC + 2) ∧ t = { s with PC := t.PC }

/-- An instruction that ends in `State.skipIf` skips exactly as the Boolean it computes says. -/
theorem skipsOn_of_exec_eq_skipIf {i : Instr} {s : State} {c : Bool} {p q : Prop} (h : exec i s = .next (s.skipIf c))
    (hp : c = true ↔ p) (hq : c = false ↔ q) : SkipsOn i s p q := by
  refine ⟨s.skipIf c, h, fun hskip => ?_, fun hnext => ?_, rfl⟩
  · rw [State.skipIf_PC, if_pos (hp.mpr hskip)]
  · rw [State.skipIf_PC, if_neg (Bool.eq_false_iff.mp (hq.mpr hnext))]

theorem exec_seImm (x : RegIx) (kk : Byte) (s : State) :
    exec (.seImm x kk) s = .next (s.skipIf (s.reg x == kk)) := rfl
theorem exec_sneImm (x : RegIx) (kk : Byte) (s : State) :
    exec (.sneImm x kk) s = .next (s.skipIf (s.reg x != kk)) := rfl
theorem exec_seReg (x y : RegIx) (s : State) :
    exec (.seReg x y) s = .next (s.skipIf (s.reg x == s.reg y)) := rfl
theorem exec_sneReg (x y : RegIx) (s : State) :
    exec (.sneReg x y) s = .next (s.skipIf (s.reg x != s.reg y)) := rfl

end Sys2Proof.Machine

namespace Sys2Proof.Proofs

open Sys2Proof.Machine

/-- Settles O34: each of the four is a skip on an equality test of bytes or on its negation. -/
theorem registerSkips : Obligations.RegisterSkips := by
  intro x y kk s
  refine ⟨?seImm, ?sneImm, ?seReg, ?sneReg⟩
  case seImm => exact skipsOn_of_exec_eq_skipIf (exec_seImm x kk s) beq_iff_eq beq_eq_false_iff_ne
  case sneImm => exact skipsOn_of_exec_eq_skipIf (exec_sneImm x kk s) bne_iff_ne bne_eq_false_iff_eq
  case seReg => exact skipsOn_of_exec_eq_skipIf (exec_seReg x y s) beq_iff_eq beq_eq_false_iff_ne
  case sneReg => exact skipsOn_of_exec_eq_skipIf (exec_sneReg x y s) bne_iff_ne bne_eq_false_iff_eq

end Sys2Proof.Proofs
end

section
/-! Register loads and the ALU (spec/42_alu.md R150 to R164): what the two shapes of write do, said once; the ALU's
results and flags as exact arithmetic; then each instruction as an instance of its
shape. Last, the words of R164 that are none. -/

namespace Sys2Proof.Machine

open Sys2Proof.Safety

/-! ### The two shapes -/

/-- The instruction `i` completes with `v` in Vx, and changes nothing else but PC (R151 to R156). -/
def WritesReg (i : Instr) (s : State) (x : RegIx) (v : Byte) : Prop :=
  ∃ t, exec i s = .next t ∧ (∀ r, t.reg r = if r = x then v else s.reg r) ∧ t.PC = s.PC + 2 ∧
    t = { s with V := t.V, PC := t.PC }

/-- The instruction `i` completes with `f` in VF whatever x is and `v` in any other Vx, and changes nothing else but PC
(R12, R157). -/
def WritesRegAndFlag (i : Instr) (s : State) (x : RegIx) (v f : Byte) : Prop :=
  ∃ t, exec i s = .next t ∧ t.reg RegIx.VF = f ∧ (x ≠ RegIx.VF → t.reg x = v) ∧
    (∀ r, r ≠ x → r ≠ RegIx.VF → t.reg r = s.reg r) ∧ t.PC = s.PC + 2 ∧ t = { s with V := t.V, PC := t.PC }

theorem writesReg_of_exec_eq_writeReg {i : Instr} {s : State} {x : RegIx} {v : Byte} (h : exec i s = s.writeReg x v) :
    WritesReg i s x v := by
  refine ⟨(s.setReg x v).advance, h, fun r => ?_, rfl, rfl⟩
  simp only [State.reg_advance, State.reg_setReg, eq_comm (a := x)]

/-- The flag is written last, so it stands in VF even where x = F. -/
theorem writesRegAndFlag_of_exec_eq_writeRegFlag {i : Instr} {s : State} {x : RegIx} {v f : Byte}
    (h : exec i s = s.writeRegFlag x v f) : WritesRegAndFlag i s x v f := by
  refine ⟨((s.setReg x v).setReg RegIx.VF f).advance, h, ?flag, fun hx => ?result, fun r hr hF => ?others, rfl, rfl⟩
  case flag => rw [State.reg_advance, State.reg_setReg, if_pos rfl]
  case result => rw [State.reg_advance, State.reg_setReg, if_neg hx.symm, State.reg_setReg, if_pos rfl]
  case others => exact State.writeRegFlag_reg_of_ne rfl ⟨hr, hF⟩

/-! ### Results and flags -/

theorem flag_decide (p : Prop) [Decidable p] : flag (decide p) = if p then 1 else 0 := by
  simp only [flag, decide_eq_true_eq]

theorem toNat_aluSum (a b : Byte) : (aluSum a b).toNat = (a.toNat + b.toNat) % 256 := toNat_mod256 _

theorem carryFlag_eq (a b : Byte) : carryFlag a b = if 256 ≤ a.toNat + b.toNat then 1 else 0 := flag_decide _

/-- The spec's `(a + 256 - b) mod 256` is the difference of bytes (R159, R161). -/
theorem aluDiff_eq_sub (a b : Byte) : aluDiff a b = a - b := by
  have hb := b.isLt
  apply BitVec.eq_of_toNat_eq
  rw [aluDiff, toNat_mod256, BitVec.toNat_sub]
  omega

theorem noBorrowFlag_eq (a b : Byte) : noBorrowFlag a b = if b < a then 1 else 0 := flag_decide _

theorem toNat_aluShr (b : Byte) : (aluShr b).toNat = b.toNat / 2 := by
  rw [aluShr, BitVec.toNat_ushiftRight, Nat.shiftRight_eq_div_pow, pow_one]

theorem toNat_and_one (b : Byte) : (b &&& 1).toNat = b.toNat % 2 := by
  rw [BitVec.toNat_and]
  exact Nat.and_one_is_mod b.toNat

theorem toNat_shrFlag (b : Byte) : (shrFlag b).toNat = b.toNat % 2 := toNat_and_one b

theorem toNat_aluShl (b : Byte) : (aluShl b).toNat = 2 * b.toNat % 256 := by
  rw [aluShl, BitVec.toNat_shiftLeft, Nat.shiftLeft_eq, pow_one, Nat.mul_comm]

theorem toNat_shlFlag (b : Byte) : (shlFlag b).toNat = b.toNat / 128 := by
  have hb := b.isLt
  rw [shlFlag, toNat_and_one, BitVec.toNat_ushiftRight, Nat.shiftRight_eq_div_pow]
  omega

/-! ### Instructions whose results are computed -/

theorem writesReg_addImm (x : RegIx) (kk : Byte) (s : State) : WritesReg (.addImm x kk) s x (aluSum (s.reg x) kk) :=
  writesReg_of_exec_eq_writeReg rfl

theorem writesRegAndFlag_addReg (x y : RegIx) (s : State) :
    WritesRegAndFlag (.addReg x y) s x (aluSum (s.reg x) (s.reg y)) (carryFlag (s.reg x) (s.reg y)) :=
  writesRegAndFlag_of_exec_eq_writeRegFlag rfl

theorem writesRegAndFlag_subReg (x y : RegIx) (s : State) :
    WritesRegAndFlag (.subReg x y) s x (aluDiff (s.reg x) (s.reg y)) (noBorrowFlag (s.reg x) (s.reg y)) :=
  writesRegAndFlag_of_exec_eq_writeRegFlag rfl

theorem writesRegAndFlag_subnReg (x y : RegIx) (s : State) :
    WritesRegAndFlag (.subnReg x y) s x (aluDiff (s.reg y) (s.reg x)) (noBorrowFlag (s.reg y) (s.reg x)) :=
  writesRegAndFlag_of_exec_eq_writeRegFlag rfl

theorem writesRegAndFlag_shrReg (x y : RegIx) (s : State) :
    WritesRegAndFlag (.shrReg x y) s x (aluShr (s.reg y)) (shrFlag (s.reg y)) :=
  writesRegAndFlag_of_exec_eq_writeRegFlag rfl

theorem writesRegAndFlag_shlReg (x y : RegIx) (s : State) :
    WritesRegAndFlag (.shlReg x y) s x (aluShl (s.reg y)) (shlFlag (s.reg y)) :=
  writesRegAndFlag_of_exec_eq_writeRegFlag rfl

/-! ### Words that are no instruction -/

theorem State.fetchDecode_of_decode_error {s : State} {err : DecodeError} (hpc : s.PC.toNat + 1 ≤ 0xFFF)
    (herr : decode (wordAtPC s) = .error err) : s.fetchDecode = .error (.decodeFault, some (wordAtPC s)) := by
  rw [s.fetchDecode_ok hpc, herr]

/-- A step request in RUNNING whose fetch or decoder faults: the environment gets no turn (R230, R232, R233). -/
theorem stepWith_of_fetchDecode_error {e : EnvTurn} {s : State} {k : FaultKind} {raw : Option Word}
    (hrun : s.run = .running) (hhost : s.host = .step) (hfetch : s.fetchDecode = .error (k, raw)) :
    stepWith e s = .next (haltedWith s { kind := k, pc := s.PC, raw := raw }) := by
  simp only [stepWith, hrun, hhost, stepRunning, hfetch]
  rfl

end Sys2Proof.Machine

namespace Sys2Proof.Proofs

open Sys2Proof.Machine Sys2Proof.Safety

/-- Settles O38: the carry and the sum modulo 256, in the shape of a write with a flag. -/
theorem addWithCarry : Obligations.AddWithCarry := by
  intro x y s
  obtain ⟨t, hexec, hflag, hresult, hframe⟩ := writesRegAndFlag_addReg x y s
  refine ⟨t, hexec, hflag.trans (carryFlag_eq _ _), fun hx => ?_, hframe⟩
  rw [hresult hx, toNat_aluSum]

/-- Settles O39: the strict comparison and the difference, with the operands in either order. -/
theorem subtractBothWays : Obligations.SubtractBothWays := by
  intro x y s
  have hsub := writesRegAndFlag_subReg x y s
  have hsubn := writesRegAndFlag_subnReg x y s
  rw [aluDiff_eq_sub, noBorrowFlag_eq] at hsub hsubn
  exact ⟨hsub, hsubn⟩

/-- Settles O40: a shift to the right halves Vy and leaves its remainder; one to the left doubles it and leaves its top bit. -/
theorem shiftsOfSourceRegister : Obligations.ShiftsOfSourceRegister := by
  intro x y s
  constructor
  · obtain ⟨t, hexec, hflag, hresult, hframe⟩ := writesRegAndFlag_shrReg x y s
    refine ⟨t, hexec, ?_, fun hx => ?_, hframe⟩
    · rw [hflag, toNat_shrFlag]
    · rw [hresult hx, toNat_aluShr]
  · obtain ⟨t, hexec, hflag, hresult, hframe⟩ := writesRegAndFlag_shlReg x y s
    refine ⟨t, hexec, ?_, fun hx => ?_, hframe⟩
    · rw [hflag, toNat_shlFlag]
    · rw [hresult hx, toNat_aluShl]

/-- Settles O11: the decoder has no instruction for an illegal word, so the step halts before `exec`. -/
theorem illegalWordHaltsMachine : Obligations.IllegalWordHaltsMachine := by
  intro e s hrun hhost hpc hillegal
  obtain ⟨err, herr⟩ := (illegalWord_iff_decode_error _).mp hillegal
  exact ⟨stepWith_of_fetchDecode_error hrun hhost (State.fetchDecode_of_decode_error hpc herr), rfl⟩

/-- Settles O36. -/
theorem immediateLoadAndAdd : Obligations.ImmediateLoadAndAdd := by
  intro x kk s
  obtain ⟨t, hexec, hreg, hframe⟩ := writesReg_addImm x kk s
  refine ⟨writesReg_of_exec_eq_writeReg rfl, t, hexec, ?_, fun r hr => ?_, hframe⟩
  · rw [hreg, if_pos rfl, toNat_aluSum]
  · rw [hreg, if_neg hr]

/-- Settles O37: each of the four is a write of Vx without a flag. -/
theorem copyAndBitwise : Obligations.CopyAndBitwise := by
  intro x y s i v hiv
  simp only [List.mem_cons, Prod.mk.injEq, List.not_mem_nil, or_false] at hiv
  obtain ⟨rfl, rfl⟩ | ⟨rfl, rfl⟩ | ⟨rfl, rfl⟩ | ⟨rfl, rfl⟩ := hiv
  all_goals exact writesReg_of_exec_eq_writeReg rfl

end Sys2Proof.Proofs
end

section
/-! The index load (spec/43_index_memory.md R180). -/

namespace Sys2Proof.Machine

/-- `Annn` writes I and moves on to the next word, with nothing that can fault. -/
theorem exec_ldI (nnn : Addr12) (s : State) : exec (.ldI nnn) s = .next (s.setI (zext16 nnn)).advance := rfl

end Sys2Proof.Machine

namespace Sys2Proof.Proofs

open Sys2Proof.Machine

/-- Settles O42: the address is widened without loss, and the write of I and the advance touch I and PC alone. -/
theorem loadIndex : Obligations.LoadIndex := by
  intro nnn s
  refine ⟨(s.setI (zext16 nnn)).advance, exec_ldI nnn s, ?index, ?pc, ?frame⟩
  case index => rw [State.advance_I, State.setI_I, toNat_zext16]
  case pc => rw [State.advance_PC, State.setI_PC]
  case frame => rfl

end Sys2Proof.Proofs
end

section
/-! The delay timer's instructions (spec/44_timers.md R200, R201). -/

namespace Sys2Proof.Machine

/-- `Fx07` is a write of Vx without a flag, and DT is what it writes (R200). -/
theorem exec_ldVxDT (x : RegIx) (s : State) : exec (.ldVxDT x) s = s.writeReg x s.DT := rfl

/-- `Fx15` writes DT and moves on to the next word, with nothing that can fault (R201). -/
theorem exec_ldDTVx (x : RegIx) (s : State) : exec (.ldDTVx x) s = .next (s.setDT (s.reg x)).advance := rfl

end Sys2Proof.Machine

namespace Sys2Proof.Proofs

open Sys2Proof.Machine

/-- Settles O48: the read has the shape of a register write, and the write of DT and the advance touch DT and PC alone. -/
theorem delayTimerReadAndSet : Obligations.DelayTimerReadAndSet := by
  intro x s
  constructor
  · exact writesReg_of_exec_eq_writeReg (exec_ldVxDT x s)
  · refine ⟨(s.setDT (s.reg x)).advance, exec_ldDTVx x s, ?timer, ?pc, ?frame⟩
    case timer => rw [State.advance_DT, State.setDT_DT]
    case pc => rw [State.advance_PC, State.setDT_PC]
    case frame => rfl

end Sys2Proof.Proofs
end

section
/-! The display (spec/45_display_input.md R210 to R213, spec/60_exceptions.md R252 to R254): what drawing a row does to one
pixel and when the row collides; the rows of a sprite, one more at a time; then CLS and DRW. -/

namespace Sys2Proof.Machine

open Sys2Proof.Safety

/-! ### Pixels -/

/-- Columns repeat after 64 and rows after 32. -/
theorem Framebuffer.pixel_congr (fb : Framebuffer) {c c' r r' : Nat} (hc : c % 64 = c' % 64) (hr : r % 32 = r' % 32) :
    fb.pixel c r = fb.pixel c' r' := by
  simp only [Framebuffer.pixel, hc, hr]

@[simp] theorem Framebuffer.pixel_blank (c r : Nat) : Framebuffer.blank.pixel c r = false := by
  simp [Framebuffer.pixel, Framebuffer.blank, Vector.get_eq_getElem]

/-- A framebuffer is the table of its pixels. -/
theorem Framebuffer.eq_of_pixel_eq {fb fb' : Framebuffer} (h : ∀ c r, fb.pixel c r = fb'.pixel c r) : fb = fb' := by
  refine Vector.ext fun r hr => BitVec.eq_of_getLsbD_eq fun c hc => ?_
  have hpixel := h c r
  simp only [Framebuffer.pixel, Vector.get_eq_getElem, Nat.mod_eq_of_lt hr, Nat.mod_eq_of_lt hc] at hpixel
  exact hpixel

/-! ### One row of a sprite -/

/-- How far to the right of column `x` column `c` lies, counted around the 64 columns. -/
def colOffset (x c : Nat) : Nat := (c + 64 - x % 64) % 64

theorem colOffset_eq_iff {j : Nat} (x c : Nat) (hj : j < 64) : colOffset x c = j ↔ c % 64 = (x + j) % 64 := by
  unfold colOffset; omega

theorem colOffset_lt (x c : Nat) : colOffset x c < 64 := Nat.mod_lt _ (by decide)

/-- The first `n` bits of the sprite byte `b`, placed at (x, y), have a set bit on the pixel (c, r). -/
def coversPixel (b : Byte) (x y n c r : Nat) : Bool :=
  decide (r % 32 = y % 32 ∧ colOffset x c < n) && spriteBit b (colOffset x c)

/-- One more bit of the sprite covers one more column. -/
theorem coversPixel_succ (b : Byte) (x y c r : Nat) {n : Nat} (hn : n < 64) :
    coversPixel b x y (n + 1) c r =
      (coversPixel b x y n c r ^^ (spriteBit b n && decide (r % 32 = y % 32 ∧ c % 64 = (x + n) % 64))) := by
  simp only [coversPixel, ← colOffset_eq_iff x c hn]
  by_cases hcol : colOffset x c = n
  · simp [hcol, Bool.and_comm]
  · have hlt : colOffset x c < n + 1 ↔ colOffset x c < n := by omega
    simp [hcol, hlt]

/-- The first `n` bits of a row flip the pixels they cover (R253); below 64 bits no two meet the same pixel. -/
theorem Framebuffer.pixel_foldl_flip (fb : Framebuffer) (b : Byte) (x y c r : Nat) {n : Nat} (hn : n ≤ 64) :
    ((List.range n).foldl (fun fb j => if spriteBit b j then fb.flip (x + j) y else fb) fb).pixel c r =
      (fb.pixel c r ^^ coversPixel b x y n c r) := by
  induction n with
  | zero => simp [coversPixel]
  | succ n ih =>
    rw [List.range_succ, List.foldl_append, List.foldl_cons, List.foldl_nil, coversPixel_succ b x y c r hn,
      ← Bool.xor_assoc, ← ih (by omega)]
    cases spriteBit b n with
    | false => simp
    | true => simp [Framebuffer.pixel_flip]

theorem Framebuffer.pixel_drawRow (fb : Framebuffer) (b : Byte) (x y c r : Nat) :
    (fb.drawRow b x y).pixel c r = (fb.pixel c r ^^ coversPixel b x y 8 c r) :=
  fb.pixel_foldl_flip b x y c r (by decide)

/-- On its own row, the pixel `j` columns to the right is covered exactly if bit `j` of the sprite is set. -/
theorem coversPixel_add (b : Byte) (x y : Nat) {j : Nat} (hj : j < 8) : coversPixel b x y 8 (x + j) y = spriteBit b j := by
  have hoffset : colOffset x (x + j) = j := (colOffset_eq_iff x (x + j) (by omega)).mpr rfl
  simp [coversPixel, hoffset, hj]

theorem Framebuffer.collides_iff_bit (fb : Framebuffer) (b : Byte) (x y : Nat) :
    fb.collides b x y = true ↔ ∃ j, j < 8 ∧ spriteBit b j = true ∧ fb.pixel (x + j) y = true := by
  simp [Framebuffer.collides]

/-- A row collides exactly where it covers a pixel that is on (R254). -/
theorem Framebuffer.collides_iff_pixel (fb : Framebuffer) (b : Byte) (x y : Nat) :
    fb.collides b x y = true ↔ ∃ c r, c < 64 ∧ r < 32 ∧ fb.pixel c r = true ∧ coversPixel b x y 8 c r = true := by
  rw [fb.collides_iff_bit]
  constructor
  · rintro ⟨j, hj, hbit, hon⟩
    have hoffset : colOffset x ((x + j) % 64) = j := (colOffset_eq_iff x _ (by omega)).mpr (Nat.mod_mod _ _)
    refine ⟨(x + j) % 64, y % 32, Nat.mod_lt _ (by decide), Nat.mod_lt _ (by decide), ?_, ?_⟩
    · rw [fb.pixel_congr (Nat.mod_mod _ _) (Nat.mod_mod _ _), hon]
    · simp [coversPixel, hoffset, hj, hbit]
  · rintro ⟨c, r, -, -, hon, hcover⟩
    obtain ⟨⟨hrow, hlt⟩, hbit⟩ : (r % 32 = y % 32 ∧ colOffset x c < 8) ∧ spriteBit b (colOffset x c) = true := by
      simpa [coversPixel] using hcover
    have hcol : c % 64 = (x + colOffset x c) % 64 := (colOffset_eq_iff x c (colOffset_lt x c)).mp rfl
    exact ⟨colOffset x c, hlt, hbit, (fb.pixel_congr hcol hrow).symm.trans hon⟩

theorem exists_spriteBit_of_ne_zero {b : Byte} (hb : b ≠ 0) : ∃ j, j < 8 ∧ spriteBit b j = true := by
  by_contra hnone
  push Not at hnone
  refine hb (BitVec.eq_of_getLsbD_eq fun i hi => ?_)
  have hbit := hnone (7 - i) (by omega)
  rw [spriteBit, show 7 - (7 - i) = i by omega] at hbit
  simpa using hbit

/-- Two draws of a row flip each covered pixel twice. -/
theorem Framebuffer.drawRow_drawRow (fb : Framebuffer) (b : Byte) (x y : Nat) :
    (fb.drawRow b x y).drawRow b x y = fb := by
  refine Framebuffer.eq_of_pixel_eq fun c r => ?_
  rw [Framebuffer.pixel_drawRow, Framebuffer.pixel_drawRow, Bool.xor_assoc, Bool.xor_self, Bool.xor_false]

/-! ### The rows of a sprite -/

theorem Memory.readBytes_succ_last (m : Memory) (a n : Nat) :
    m.readBytes a (n + 1) = m.readBytes a n ++ [m.read (a + n)] := by
  simp only [Memory.readBytes, List.range_succ, List.map_append, List.map_cons, List.map_nil]

/-- The rows of two lists are drawn one list after the other. -/
theorem Adapter.drawRows_append (xc : Byte) (bs cs : List Byte) (y : BitVec 9) (c : Bool) (a : Adapter) :
    Adapter.drawRows xc (bs ++ cs) y c a =
      Adapter.drawRows xc cs (y + BitVec.ofNat 9 bs.length)
        (Adapter.drawRows xc bs y c a).1 (Adapter.drawRows xc bs y c a).2 := by
  induction bs generalizing y c a with
  | nil => simp [Adapter.drawRows]
  | cons b bs ih =>
    have hy : y + 1 + BitVec.ofNat 9 bs.length = y + BitVec.ofNat 9 (b :: bs).length := by
      rw [List.length_cons, Nat.add_comm, BitVec.ofNat_add, BitVec.add_assoc]
      rfl
    rw [List.cons_append, Adapter.drawRows, ih, hy, Adapter.drawRows]

/-- The first `n` rows of the sprite at I, drawn at (V[x], V[y]): `State.drawSprite` at any number of rows. -/
def State.drawFirstRows (s : State) (x y : RegIx) (n : Nat) : Bool × Adapter :=
  Adapter.drawRows (s.reg x) (s.MEM.readBytes s.I.toNat n) ((s.reg y).zeroExtend 9) false s.adapter

theorem State.drawSprite_eq (s : State) (x y : RegIx) (n : BitVec 4) : s.drawSprite x y n = s.drawFirstRows x y n.toNat := rfl

theorem State.drawFirstRows_zero (s : State) (x y : RegIx) : s.drawFirstRows x y 0 = (false, s.adapter) := rfl

/-- The row's coordinate in the 9 bits of a request. -/
theorem zeroExtend_add_row (v : Byte) (n : Nat) :
    v.zeroExtend 9 + BitVec.ofNat 9 n = BitVec.ofNat 9 (v.toNat + n) := by
  apply BitVec.eq_of_toNat_eq
  simp

/-- The last row is a collision check and a draw on what the earlier rows left (R211, R212). -/
theorem State.drawFirstRows_succ (s : State) (x y : RegIx) (n : Nat) :
    s.drawFirstRows x y (n + 1) =
      Adapter.drawRows (s.reg x) [s.MEM.read (s.I.toNat + n)] (BitVec.ofNat 9 ((s.reg y).toNat + n))
        (s.drawFirstRows x y n).1 (s.drawFirstRows x y n).2 := by
  rw [State.drawFirstRows, Memory.readBytes_succ_last, Adapter.drawRows_append, Memory.length_readBytes,
    zeroExtend_add_row]
  rfl

/-- No row of a sprite has a coordinate that 9 bits cannot hold. -/
theorem toNat_rowCoordinate (v : Byte) {n : Nat} (hn : n < 16) : (BitVec.ofNat 9 (v.toNat + n)).toNat = v.toNat + n := by
  have := v.isLt
  rw [BitVec.toNat_ofNat, Nat.mod_eq_of_lt (by omega)]

theorem State.drawFirstRows_fb (s : State) (x y : RegIx) {n : Nat} (hn : n ≤ 16) :
    (s.drawFirstRows x y n).2.fb = fbAfterRows s x y n := by
  induction n with
  | zero => rfl
  | succ n ih =>
    rw [fbAfterRows, ← ih (by omega), ← toNat_rowCoordinate (s.reg y) hn, State.drawFirstRows_succ]
    rfl

theorem State.drawFirstRows_sent (s : State) (x y : RegIx) (n : Nat) :
    (s.drawFirstRows x y n).2.sent = s.adapter.sent ++ (List.range n).flatMap (rowRequests s x y) := by
  induction n with
  | zero => simp [State.drawFirstRows_zero]
  | succ n ih =>
    rw [State.drawFirstRows_succ, List.range_succ, List.flatMap_append, ← List.append_assoc, ← ih, List.flatMap_singleton]
    exact List.append_assoc _ [_] [_]

theorem State.drawFirstRows_collision_iff (s : State) (x y : RegIx) {n : Nat} (hn : n ≤ 16) :
    (s.drawFirstRows x y n).1 = true ↔ ∃ r, r < n ∧ rowCollides s x y r := by
  induction n with
  | zero => simp [State.drawFirstRows_zero]
  | succ n ih =>
    have hrow : (s.drawFirstRows x y (n + 1)).1 = true ↔
        (s.drawFirstRows x y n).1 = true ∨ rowCollides s x y n := by
      rw [rowCollides, ← s.drawFirstRows_fb x y (by omega : n ≤ 16), ← toNat_rowCoordinate (s.reg y) hn,
        State.drawFirstRows_succ]
      exact Bool.or_eq_true_iff
    rw [hrow, ih (by omega), Nat.exists_lt_succ_right]

theorem State.drawFirstRows_keys (s : State) (x y : RegIx) (n : Nat) :
    (s.drawFirstRows x y n).2.keys = s.adapter.keys := Adapter.drawRows_keys ..

/-! ### CLS and DRW -/

/-- `00E0` clears the adapter's framebuffer and moves on to the next word, with nothing that can fault (R210). -/
theorem exec_cls (s : State) : exec .cls s = .next ({ s with adapter := s.adapter.clearScreen } : State).advance := rfl

/-- `Dxyn` whose bytes all exist (R211, R212). -/
theorem exec_drw_of_le {x y : RegIx} {n : BitVec 4} {s : State} (h : n = 0 ∨ s.I.toNat + n.toNat - 1 ≤ 0xFFF) :
    exec (.drw x y n) s = .next (({ s with adapter := (s.drawFirstRows x y n.toNat).2 } : State).setReg RegIx.VF
      (flag (s.drawFirstRows x y n.toNat).1)).advance := by
  have hrange : checkRange s.I.toNat n.toNat = none := by
    rw [checkRange_eq, if_neg]
    obtain rfl | hle := h
    · simp
    · omega
  simp only [exec, execDrw, hrange, State.drawSprite_eq]

/-- `Dxyn` with a byte that does not exist (R211, R233). -/
theorem exec_drw_fault {x y : RegIx} {n : BitVec 4} {s : State} (hn : n ≠ 0) (h : 0xFFF < s.I.toNat + n.toNat - 1) :
    exec (.drw x y n) s = s.raise (.boundsFault (max s.I.toNat 0x1000)) (.drw x y n) := by
  have hpos : 0 < n.toNat := Nat.pos_of_ne_zero fun h0 => hn (BitVec.eq_of_toNat_eq h0)
  have hrange : checkRange s.I.toNat n.toNat = some (max s.I.toNat 0x1000) := by
    rw [checkRange_eq, if_pos (by omega)]
  simp only [exec, execDrw, hrange]

end Sys2Proof.Machine

namespace Sys2Proof.Proofs

open Sys2Proof.Machine Sys2Proof.Safety

/-- Settles O53: of the pixels that are on, a draw turns off those the row covers, and the row collides where there is one. -/
theorem collisionMeansPixelTurnedOff : Obligations.CollisionMeansPixelTurnedOff := by
  intro fb b x y
  rw [fb.collides_iff_pixel]
  refine exists₂_congr fun c r => and_congr_right fun _ => and_congr_right fun _ => and_congr_right fun hon => ?_
  rw [fb.pixel_drawRow, hon, Bool.true_xor, Bool.not_eq_false']

/-- Settles O54: the rows of the model, one more at a time, are those the statement counts; the coordinates fit 9 bits. -/
theorem drawSpriteRowsAndCollision : Obligations.DrawSpriteRowsAndCollision := by
  intro x y n s
  constructor
  · intro hle
    have hn : n.toNat ≤ 16 := by have := n.isLt; omega
    have hcollision := s.drawFirstRows_collision_iff x y hn
    refine ⟨_, exec_drw_of_le hle, s.drawFirstRows_fb x y hn, s.drawFirstRows_sent x y n.toNat,
      s.drawFirstRows_keys x y n.toNat, fun hsome => ?hit, fun hnone => ?miss, fun r hr => ?others, rfl, rfl⟩
    case hit => rw [State.reg_advance, State.reg_setReg, if_pos rfl, hcollision.mpr hsome]; rfl
    case miss =>
      have hfalse : (s.drawFirstRows x y n.toNat).1 = false :=
        Bool.eq_false_iff.mpr fun htrue => by
          obtain ⟨r, hr, hrow⟩ := hcollision.mp htrue
          exact hnone r hr hrow
      rw [State.reg_advance, State.reg_setReg, if_pos rfl, hfalse]; rfl
    case others => exact execDrw_reg_of_ne (exec_drw_of_le hle) hr
  · intro hn hfault
    exact (exec_drw_fault hn hfault).trans (State.raise_eq s _ _)

/-- Settles O55: on a blank row, a set bit of the byte covers a pixel that the first draw turns on. -/
theorem drawTwiceRestoresFramebuffer : Obligations.DrawTwiceRestoresFramebuffer := by
  intro fb b x y
  refine ⟨fb.drawRow_drawRow b x y, fun hblank hb => ⟨?first, ?second⟩⟩
  case first => simp [Framebuffer.collides, hblank]
  case second =>
    obtain ⟨j, hj, hbit⟩ := exists_spriteBit_of_ne_zero hb
    refine (Framebuffer.collides_iff_bit _ b x y).mpr ⟨j, hj, hbit, ?_⟩
    rw [fb.pixel_drawRow, hblank, Bool.false_xor, coversPixel_add b x y hj, hbit]

/-- Settles O50: the adapter's part of the clear touches the framebuffer and the requests sent alone. -/
theorem clearScreenTurnsAllPixelsOff : Obligations.ClearScreenTurnsAllPixelsOff :=
  fun s => ⟨_, exec_cls s, Framebuffer.pixel_blank, rfl, rfl, rfl, rfl⟩

end Sys2Proof.Proofs
end

section
/-! The key wait (spec/45_display_input.md R220 to R223): `Fx0A`, one step of the wait, and runs of the wait under a fair
environment, in which DT runs out (spec/60_exceptions.md R240, R241). -/

namespace Sys2Proof.Machine

open Sys2Proof.Safety

/-- `Fx0A` begins its wait in every state, with nothing that can fault (R221). -/
theorem exec_ldVxK (x : RegIx) (s : State) :
    exec (.ldVxK x) s = .next { s with run := .waitKey x s.PC, adapter := s.adapter.waitForInput } := rfl

/-- A step request in WAIT_KEY is one turn of the wait. -/
theorem stepWith_of_waitKey (e : EnvTurn) {s : State} {x : RegIx} {pc0 : Word} (hrun : s.run = .waitKey x pc0)
    (hhost : s.host = .step) : stepWith e s = .next (s.waitTurn e x pc0) := by
  simp only [stepWith, hrun, hhost]

theorem State.waitTurn_of_no_key (s : State) {e : EnvTurn} (x : RegIx) (pc0 : Word) (h : e.keyPress = none) :
    s.waitTurn e x pc0 = s.environmentTurn e := by
  simp only [State.waitTurn, h]

theorem State.waitTurn_of_key (s : State) {e : EnvTurn} {k : BitVec 4} (x : RegIx) (pc0 : Word) (h : e.keyPress = some k) :
    s.waitTurn e x pc0 = (s.environmentTurn e).deliverKey x pc0 k := by
  simp only [State.waitTurn, h]

/-- With a key or without, a turn of the wait is the environment's turn but for V, PC and the run state. -/
theorem State.waitTurn_frame (s : State) (e : EnvTurn) (x : RegIx) (pc0 : Word) :
    s.waitTurn e x pc0 = { s.environmentTurn e with
      V := (s.waitTurn e x pc0).V
      PC := (s.waitTurn e x pc0).PC
      run := (s.waitTurn e x pc0).run } := by
  cases h : e.keyPress with
  | none => rw [s.waitTurn_of_no_key x pc0 h]
  | some k => rw [s.waitTurn_of_key x pc0 h]; rfl

/-- The delivered key stands in V[x], and every other register is as before (R223). -/
theorem State.reg_deliverKey (s : State) (x r : RegIx) (pc0 : Word) (k : BitVec 4) :
    (s.deliverKey x pc0 k).reg r = if r = x then k.zeroExtend 8 else s.reg r := by
  simp only [eq_comm (a := r)]
  exact s.reg_setReg x r _

theorem runWith_succ_of_next {env : Nat → EnvTurn} {s t : State} (k : Nat) (h : stepWith (env s.turn) s = .next t) :
    runWith env (k + 1) s = runWith env k t := by
  simp only [runWith, h]

/-- Steps of a key wait that gets no key: DT takes the decrements of all their turns, and beside the environment's own parts
nothing changes (R222). -/
theorem runWith_of_waitKey {env : Nat → EnvTurn} (hkey : ∀ n, (env n).keyPress = none) {x : RegIx} {pc0 : Word} (k : Nat)
    {s : State} (hrun : s.run = .waitKey x pc0) (hhost : s.host = .step) :
    ∃ t, runWith env k s = .next t ∧
      t.DT.toNat = s.DT.toNat - ∑ i ∈ Finset.range k, (env (s.turn + i)).dtTicks ∧
      t = { s with DT := t.DT, ST := t.ST, adapter := t.adapter, turn := t.turn } := by
  induction k generalizing s with
  | zero => exact ⟨s, rfl, by simp, rfl⟩
  | succ k ih =>
    have hstep : stepWith (env s.turn) s = .next (s.environmentTurn (env s.turn)) := by
      rw [stepWith_of_waitKey _ hrun hhost, s.waitTurn_of_no_key x pc0 (hkey _)]
    obtain ⟨t, ht, hDT, hframe⟩ := ih (s := s.environmentTurn (env s.turn)) hrun hhost
    refine ⟨t, (runWith_succ_of_next k hstep).trans ht, ?_, hframe⟩
    rw [hDT, State.environmentTurn_DT, toNat_ticks, State.environmentTurn_turn, Finset.sum_range_succ']
    simp only [Nat.add_assoc, Nat.add_comm 1, Nat.add_zero]
    omega

/-- Counts that are positive again and again add up to any bound. -/
theorem exists_le_sum_of_frequently_pos {f : Nat → Nat} (hf : ∀ n, ∃ m, n ≤ m ∧ 0 < f m) (start bound : Nat) :
    ∃ k, bound ≤ ∑ i ∈ Finset.range k, f (start + i) := by
  induction bound with
  | zero => exact ⟨0, Nat.zero_le _⟩
  | succ bound ih =>
    obtain ⟨k, hk⟩ := ih
    obtain ⟨m, hm, hpos⟩ := hf (start + k)
    obtain ⟨j, rfl⟩ := Nat.exists_eq_add_of_le (Nat.le_of_add_right_le hm)
    have hmono : ∑ i ∈ Finset.range k, f (start + i) ≤ ∑ i ∈ Finset.range j, f (start + i) :=
      Finset.sum_le_sum_of_subset (Finset.range_mono (by omega))
    refine ⟨j + 1, ?_⟩
    rw [Finset.sum_range_succ]
    omega

end Sys2Proof.Machine

namespace Sys2Proof.Proofs

open Sys2Proof.Machine Sys2Proof.Safety

/-- Settles O15: the timers, the keyboard and the count are the environment's with a key or without; the rest is a case each. -/
theorem keyWaitTwoPhases : Obligations.KeyWaitTwoPhases := by
  refine ⟨fun x s => ⟨_, exec_ldVxK x s, rfl, rfl, rfl⟩, fun e x pc0 s hrun hhost => ?_⟩
  have hturn := s.waitTurn_frame e x pc0
  refine ⟨_, stepWith_of_waitKey e hrun hhost, ?dt, ?st, ?adapter, ?turn, fun hnone => ?waits, fun k hkey => ?completes⟩
  case dt => rw [hturn]; exact toNat_ticks _ _
  case st => rw [hturn]; exact toNat_ticks _ _
  case adapter => rw [hturn]; rfl
  case turn => rw [hturn]; rfl
  case waits => rw [s.waitTurn_of_no_key x pc0 hnone]; rfl
  case completes =>
    rw [s.waitTurn_of_key x pc0 hkey]
    exact ⟨fun r => State.reg_deliverKey _ x r pc0 k, rfl, rfl, rfl⟩

/-- Settles O16: by fairness the decrements add up to DT, and the wait goes on through all their turns. -/
theorem delayTimerRunsOutInKeyWait : Obligations.DelayTimerRunsOutInKeyWait := by
  intro env s x pc0 hfair hkey hrun hhost
  obtain ⟨k, hk⟩ := exists_le_sum_of_frequently_pos (fun n => (hfair n).1) s.turn s.DT.toNat
  obtain ⟨t, ht, hDT, hframe⟩ := runWith_of_waitKey hkey k hrun hhost
  refine ⟨k, t, ht, BitVec.eq_of_toNat_eq (hDT.trans (Nat.sub_eq_zero_of_le hk)), ?_⟩
  rw [hframe]
  exact ⟨rfl, rfl, rfl, rfl, rfl, rfl, rfl⟩

end Sys2Proof.Proofs
end

section
/-! What the exceptions chapter says of the timers and the adapter (spec/60_exceptions.md R240 to R242, R254, R256): the ticks,
the steps that cannot raise a timer, the key poll and its two skips, and the collision check. -/

namespace Sys2Proof.Machine

/-! ### The timers in a step -/

/-- Serving a stop writes the run state and the host's request alone (R260). -/
theorem State.stop_frame (s : State) : s.stop = { s with run := s.stop.run, host := s.stop.host } := by
  unfold State.stop
  split <;> rfl

theorem toNat_ticks_le (n : Nat) (v : Byte) : (ticks n v).toNat ≤ v.toNat := by
  rw [toNat_ticks]
  exact Nat.sub_le _ _

/-- Neither DT nor ST of `t` is above that of `s`. -/
def TimersAtMost (t s : State) : Prop := t.DT.toNat ≤ s.DT.toNat ∧ t.ST.toNat ≤ s.ST.toNat

theorem TimersAtMost.environmentTurn (s : State) (e : EnvTurn) : TimersAtMost (s.environmentTurn e) s :=
  ⟨toNat_ticks_le _ _, toNat_ticks_le _ _⟩

theorem TimersAtMost.afterStep (s : State) (e : EnvTurn) : TimersAtMost (s.afterStep e) s := by
  rcases s.afterStep_cases e with ⟨hturn, -⟩ | ⟨hsame, -⟩
  · rw [hturn]; exact .environmentTurn s e
  · rw [hsame]; exact ⟨le_rfl, le_rfl⟩

theorem TimersAtMost.waitTurn (s : State) (e : EnvTurn) (x : RegIx) (pc0 : Word) :
    TimersAtMost (s.waitTurn e x pc0) s := by
  rw [s.waitTurn_frame e x pc0]
  exact .environmentTurn s e

theorem TimersAtMost.stop (s : State) : TimersAtMost s.stop s := by
  rw [s.stop_frame]
  exact ⟨le_rfl, le_rfl⟩

/-- A step either leaves both timers no higher than they were, or runs an instruction and then lets the environment take its
turn: only the instruction can raise a timer (R242). -/
theorem timersAtMost_or_exec_of_stepWith {e : EnvTurn} {s t : State} (h : stepWith e s = .next t) :
    TimersAtMost t s ∨ ∃ i u, s.fetchDecode = .ok i ∧ exec i s = .next u ∧ TimersAtMost t u := by
  rcases stepWith_next h with ⟨-, rfl, -⟩ | ⟨-, -, k, raw, -, rfl⟩ | ⟨-, -, i, u, hfetch, hexec, rfl⟩ |
    ⟨-, x, pc0, -, rfl⟩
  · exact .inl (.stop s)
  · exact .inl ⟨le_rfl, le_rfl⟩
  · exact .inr ⟨i, u, hfetch, hexec, .afterStep u e⟩
  · exact .inl (.waitTurn s e x pc0)

/-! ### The key poll -/

/-- A key value that names a key asks the adapter once and draws nothing (R135, R256). -/
theorem State.pollKey_of_le {s : State} {k : Byte} (h : k.toNat ≤ 15) :
    s.pollKey k = (s.adapter.keys.getLsbD k.toNat, { s with adapter := { s.adapter with
      sent := s.adapter.sent ++ [.isKeyPressed (BitVec.ofNat 4 k.toNat)] } }) := by
  have hkey : (k.setWidth 4).toNat = k.toNat := by
    rw [BitVec.toNat_setWidth, Nat.mod_eq_of_lt (by omega)]
  rw [State.pollKey, if_pos h, Adapter.isKeyPressed, hkey, BitVec.ofNat_toNat]
  rfl

/-- A key value above 15 is a draw, and the adapter is not asked (R135, R255). -/
theorem State.pollKey_of_gt {s : State} {k : Byte} (h : 15 < k.toNat) :
    s.pollKey k = (Config.pollAbove15 s.draws, { s with draws := s.draws + 1 }) :=
  if_neg (Nat.not_le.mpr h)

theorem State.pollKey_PC (s : State) (k : Byte) : (s.pollKey k).2.PC = s.PC := by
  rw [State.pollKey_frame]

/-- `Ex9E` skips on the answer of the poll, and nothing in it can fault (R135). -/
theorem exec_skp (x : RegIx) (s : State) :
    exec (.skp x) s = .next ((s.pollKey (s.reg x)).2.skipIf (s.pollKey (s.reg x)).1) := rfl

/-- `ExA1` makes the same poll and skips on the opposite answer (R136). -/
theorem exec_sknp (x : RegIx) (s : State) :
    exec (.sknp x) s = .next ((s.pollKey (s.reg x)).2.skipIf (!(s.pollKey (s.reg x)).1)) := rfl

end Sys2Proof.Machine

namespace Sys2Proof.Proofs

open Sys2Proof.Machine

/-- Settles O17: a tick is a truncated subtraction of 1, and k of them are one of k. -/
theorem timerTickSaturatesAtZero : Obligations.TimerTickSaturatesAtZero := by
  refine ⟨fun v => ⟨fun _ => toNat_tick v, ?zero⟩, toNat_ticks⟩
  rintro rfl
  rfl

/-- Settles O19: only the instruction of a step can raise a timer, and an instruction other than the timer's own setter
leaves it. -/
theorem timersNeverRiseUnlessSet : Obligations.TimersNeverRiseUnlessSet := by
  intro e s t h
  rcases timersAtMost_or_exec_of_stepWith h with ⟨hDT, hST⟩ | ⟨i, u, hfetch, hexec, hDT, hST⟩
  · exact ⟨fun _ => hDT, fun _ => hST⟩
  · obtain ⟨-, hkeepDT, hkeepST⟩ := specialRegistersWrittenOnlyAsListed i s u hexec
    rw [hfetch]
    constructor
    · intro hne
      rwa [hkeepDT fun x hi => hne x (congrArg _ hi)] at hDT
    · intro hne
      rwa [hkeepST fun x hi => hne x (congrArg _ hi)] at hST

/-- Settles O35: both skips make one poll and differ only in the answer they skip on; the poll is a request or a draw. -/
theorem keySkips : Obligations.KeySkips := by
  intro x s
  refine ⟨(s.pollKey (s.reg x)).1, _, _, exec_skp x s, exec_sknp x s, ?skp, ?sknp, fun hle => ?asked, fun hgt => ?drawn⟩
  case skp => rw [State.skipIf_PC, State.pollKey_PC]
  case sknp =>
    rw [State.skipIf_PC, State.pollKey_PC]
    cases (s.pollKey (s.reg x)).1 <;> rfl
  case asked => rw [State.pollKey_of_le hle]; exact ⟨rfl, rfl, rfl⟩
  case drawn => rw [State.pollKey_of_gt hgt]; exact ⟨rfl, rfl, rfl⟩

/-- Settles O52: the check asks for the pixel at the unreduced coordinates, which wrap to the ones on the screen. -/
theorem checkCollisionFindsSetPixel : Obligations.CheckCollisionFindsSetPixel := by
  intro a b x y
  refine ⟨(a.fb.collides_iff_bit b x.toNat y.toNat).trans ?_, rfl⟩
  refine exists_congr fun j => and_congr_right fun _ => and_congr_right fun _ => ?_
  rw [a.fb.pixel_congr (Nat.mod_mod _ _) (Nat.mod_mod _ _)]

end Sys2Proof.Proofs
end

section
/-! How a step ends (spec/60_exceptions.md R230 to R239, R260): a step request in RUNNING halts with the record the spec
gives or goes on, and a stop is served in RUNNING and in WAIT_KEY. The statements follow from these. -/

namespace Sys2Proof.Machine

open Sys2Proof.Safety

/-- No turn of the environment follows a fault (log 15). -/
theorem afterStep_haltedWith (s : State) (r : FaultRecord) (e : EnvTurn) :
    (haltedWith s r).afterStep e = haltedWith s r := rfl

/-- The encoding of an instruction that can fault is the only word that decodes to it, so it is the fetched one (log 19). -/
theorem encode_of_ownFault {w : Word} {i : Instr} {s : State} {k : FaultKind} (hdecode : decode w = .ok i)
    (hown : ownFault i s = some k) : encode i = w := by
  cases wordOf_of_decode hdecode with
  | canonical _ hw => exact hw
  | seReg | sneReg => cases hown

/-- An instruction that raises its own fault halts with the record that names PC and the fetched word (R230, R234). -/
theorem exec_of_ownFault {i : Instr} {s : State} {k : FaultKind} (hdecode : decode (wordAtPC s) = .ok i)
    (hown : ownFault i s = some k) :
    exec i s = .next (haltedWith s { kind := k, pc := s.PC, raw := some (wordAtPC s) }) := by
  rcases exec_outcome i s with ⟨k', hown', hexec⟩ | ⟨hnone, -⟩
  · cases hown.symm.trans hown'
    rw [hexec, State.raise_eq, encode_of_ownFault hdecode hown]
  · cases hown.symm.trans hnone

/-- An instruction with no fault of its own completes in RUNNING, and the machine is not halted. -/
theorem exec_of_no_ownFault {i : Instr} {s : State} (hrun : s.run = .running) (hown : ownFault i s = none) :
    ∃ t, exec i s = .next t ∧ ∀ r, t.run ≠ .halted r := by
  rcases exec_outcome i s with ⟨k, hsome, -⟩ | ⟨-, t, hexec, hsame | ⟨x, -, hwait⟩⟩
  · cases hown.symm.trans hsome
  · exact ⟨t, hexec, fun r => by rw [hsame, hrun]; nofun⟩
  · exact ⟨t, hexec, fun r => by rw [hwait]; nofun⟩

/-! ### The spec's fault function, stage by stage -/

theorem faultOf_fetch {s : State} (h : 0xFFF < s.PC.toNat + 1) :
    faultOf s = some { kind := .boundsFault (max s.PC.toNat 0x1000), pc := s.PC, raw := none } := if_pos h

theorem faultOf_decode_error {s : State} {err : DecodeError} (hpc : s.PC.toNat + 1 ≤ 0xFFF)
    (hdecode : decode (wordAtPC s) = .error err) :
    faultOf s = some { kind := .decodeFault, pc := s.PC, raw := some (wordAtPC s) } := by
  rw [faultOf, if_neg (by omega), hdecode]

theorem faultOf_decode_ok {s : State} {i : Instr} (hpc : s.PC.toNat + 1 ≤ 0xFFF) (hdecode : decode (wordAtPC s) = .ok i) :
    faultOf s = (ownFault i s).map fun k => { kind := k, pc := s.PC, raw := some (wordAtPC s) } := by
  rw [faultOf, if_neg (by omega), hdecode]

/-- The record of a fault names PC, and the fetched word if there is one (R34, R237). -/
theorem faultOf_record {s : State} {r : FaultRecord} (h : faultOf s = some r) :
    r.pc = s.PC ∧ (s.PC.toNat + 1 ≤ 0xFFF → r.raw = some (wordAtPC s)) ∧ (0xFFF < s.PC.toNat + 1 → r.raw = none) := by
  by_cases hpc : 0xFFF < s.PC.toNat + 1
  · rw [faultOf_fetch hpc] at h
    cases h
    exact ⟨rfl, fun hle => absurd hpc (by omega), fun _ => rfl⟩
  · have hle : s.PC.toNat + 1 ≤ 0xFFF := Nat.le_of_not_lt hpc
    cases hdecode : decode (wordAtPC s) with
    | error err =>
      rw [faultOf_decode_error hle hdecode] at h
      cases h
      exact ⟨rfl, fun _ => rfl, fun hlt => absurd hlt hpc⟩
    | ok i =>
      rw [faultOf_decode_ok hle hdecode] at h
      obtain ⟨k, -, rfl⟩ := Option.map_eq_some_iff.mp h
      exact ⟨rfl, fun _ => rfl, fun hlt => absurd hlt hpc⟩

/-! ### A step request in RUNNING -/

/-- R236: the three stages of a step fault in the spec's order, each with the spec's record. -/
theorem stepWith_of_faultOf {e : EnvTurn} {s : State} {r : FaultRecord} (hrun : s.run = .running) (hhost : s.host = .step)
    (h : faultOf s = some r) : stepWith e s = .next (haltedWith s r) := by
  by_cases hpc : 0xFFF < s.PC.toNat + 1
  · rw [faultOf_fetch hpc] at h
    cases h
    exact stepWith_of_fetchDecode_error hrun hhost (s.fetchDecode_fault hpc)
  · have hle : s.PC.toNat + 1 ≤ 0xFFF := Nat.le_of_not_lt hpc
    cases hdecode : decode (wordAtPC s) with
    | error err =>
      rw [faultOf_decode_error hle hdecode] at h
      cases h
      exact stepWith_of_fetchDecode_error hrun hhost (State.fetchDecode_of_decode_error hle hdecode)
    | ok i =>
      rw [faultOf_decode_ok hle hdecode] at h
      obtain ⟨k, hown, rfl⟩ := Option.map_eq_some_iff.mp h
      rw [stepWith_of_fetchDecode hrun hhost (State.fetchDecode_of_decode hle hdecode) (exec_of_ownFault hdecode hown),
        afterStep_haltedWith]

/-- With no fault in any stage the step goes on. -/
theorem stepWith_of_no_fault {e : EnvTurn} {s : State} (hrun : s.run = .running) (hhost : s.host = .step)
    (h : faultOf s = none) : ∃ t, stepWith e s = .next t ∧ ∀ r, t.run ≠ .halted r := by
  have hle : s.PC.toNat + 1 ≤ 0xFFF := by
    by_contra hpc
    rw [faultOf_fetch (by omega)] at h
    cases h
  cases hdecode : decode (wordAtPC s) with
  | error err => rw [faultOf_decode_error hle hdecode] at h; cases h
  | ok i =>
    rw [faultOf_decode_ok hle hdecode, Option.map_eq_none_iff] at h
    obtain ⟨t, hexec, hrunning⟩ := exec_of_no_ownFault hrun h
    refine ⟨_, stepWith_of_fetchDecode hrun hhost (State.fetchDecode_of_decode hle hdecode) hexec, ?_⟩
    rwa [State.afterStep_run]

/-! ### A pending stop -/

theorem State.stop_of_active {s : State} (h : s.run = .running ∨ ∃ x pc0, s.run = .waitKey x pc0) :
    s.stop = { s with run := .stopped, host := .step } := by
  rcases h with hrun | ⟨x, pc0, hrun⟩ <;> simp only [State.stop, hrun]

/-- A pending stop is served in place of the step, in RUNNING and in WAIT_KEY (R224, R260). -/
theorem stepWith_of_stop {e : EnvTurn} {s : State} (hhost : s.host = .stop)
    (h : s.run = .running ∨ ∃ x pc0, s.run = .waitKey x pc0) :
    stepWith e s = .next { s with run := .stopped, host := .step } := by
  rw [← State.stop_of_active h]
  rcases h with hrun | ⟨x, pc0, hrun⟩ <;> simp only [stepWith, hrun, hhost]

end Sys2Proof.Machine

namespace Sys2Proof.Proofs

open Sys2Proof.Machine Sys2Proof.Safety

/-- Settles O10. -/
theorem stepFaultsExactlyAsSpecified : Obligations.StepFaultsExactlyAsSpecified :=
  fun _ _ hrun hhost => ⟨fun _ => stepWith_of_faultOf hrun hhost, stepWith_of_no_fault hrun hhost⟩

/-- Settles O12: a step that halts serves no stop, and the spec's fault function gives its record. -/
theorem faultsArePrecise : Obligations.FaultsArePrecise := by
  intro e s t r hrun hstep hhalted
  have hhost : s.host = .step := by
    cases hhost : s.host with
    | step => rfl
    | stop =>
      cases (stepWith_of_stop hhost (.inl hrun)).symm.trans hstep
      cases hhalted
  cases hfault : faultOf s with
  | none =>
    obtain ⟨u, hu, hnot⟩ := stepWith_of_no_fault (e := e) hrun hhost hfault
    cases hu.symm.trans hstep
    exact absurd hhalted (hnot r)
  | some r' =>
    cases (stepWith_of_faultOf hrun hhost hfault).symm.trans hstep
    cases hhalted
    exact ⟨rfl, faultOf_record hfault⟩

/-- Settles O13: a pending stop, an instruction with a fault or without, and a turn of a key wait each give a next state. -/
theorem stepStopsOnlyAfterTheRunEnded : Obligations.StepStopsOnlyAfterTheRunEnded := by
  intro e s
  refine ⟨fun r hrun => ?halted, fun hrun => ?stopped, fun hhalted hstopped => ?active⟩
  case halted => simp only [stepWith, hrun]
  case stopped => simp only [stepWith, hrun]
  cases hrun : s.run with
  | halted r => exact absurd hrun (hhalted r)
  | stopped => exact absurd hrun hstopped
  | waitKey x pc0 =>
    cases hhost : s.host with
    | stop => exact ⟨_, stepWith_of_stop hhost (.inr ⟨x, pc0, hrun⟩)⟩
    | step => exact ⟨_, stepWith_of_waitKey e hrun hhost⟩
  | running =>
    cases hhost : s.host with
    | stop => exact ⟨_, stepWith_of_stop hhost (.inl hrun)⟩
    | step =>
      cases hfault : faultOf s with
      | some r => exact ⟨_, stepWith_of_faultOf hrun hhost hfault⟩
      | none =>
        obtain ⟨t, ht, -⟩ := stepWith_of_no_fault (e := e) hrun hhost hfault
        exact ⟨t, ht⟩

/-- Settles O14. -/
theorem stopGivesStopped : Obligations.StopGivesStopped := fun _ _ => stepWith_of_stop

end Sys2Proof.Proofs
end

section
/-! Construction (spec/70_reset_and_hazards.md R270, spec/10_state.md R37): the bytes memory starts with, and the state
around them. -/

namespace Sys2Proof.Machine

/-! ### The bytes at construction -/

theorem Params.initialByte_font (p : Params) (image : List Byte) {a : Nat} (h : a < 80) :
    p.initialByte image a = p.font[a] := dif_pos h

theorem Params.initialByte_image (p : Params) {image : List Byte} {a : Nat} (h : a < image.length) :
    p.initialByte image (0x200 + a) = image[a] := by
  have hin : Config.programBase ≤ 0x200 + a ∧ 0x200 + a < Config.programBase + image.length :=
    ⟨Nat.le_add_right _ _, Nat.add_lt_add_left h _⟩
  have hoffset : 0x200 + a - Config.programBase = a := Nat.add_sub_cancel_left ..
  rw [Params.initialByte, dif_neg (by omega), if_pos hin, hoffset]
  exact List.getD_eq_getElem _ _ h

theorem Params.initialByte_fill (p : Params) {image : List Byte} {a : Nat} (hfont : 80 ≤ a)
    (h : a < 0x200 ∨ 0x200 + image.length ≤ a) : p.initialByte image a = p.memFill a := by
  have hout : ¬(Config.programBase ≤ a ∧ a < Config.programBase + image.length) := by
    simp only [Config.programBase]; omega
  rw [Params.initialByte, dif_neg (by omega), if_neg hout]

/-- Memory with nothing but the background is the empty list of cells. -/
theorem Memory.tabulate_background {f : Nat → Byte} (h : ∀ a, f a = Memory.background a) : Memory.tabulate f = [] :=
  List.filterMap_eq_nil_iff.mpr fun a _ => if_pos (h a)

theorem length_defaultFont : defaultFont.length = 80 := by decide

/-- The default parameters with no image give the background: the font below 80 and zero above (logs 7, 8). -/
theorem Params.initialByte_default (a : Nat) : Params.default.initialByte [] a = Memory.background a := by
  by_cases hfont : a < 80
  · rw [Params.initialByte_font _ _ hfont]
    exact (List.getD_eq_getElem defaultFont 0 (by rwa [length_defaultFont])).symm
  · have hfill : a < 0x200 ∨ 0x200 + ([] : List Byte).length ≤ a := Nat.lt_or_ge a 0x200
    rw [Params.initialByte_fill _ (by omega) hfill]
    exact (List.getD_eq_default defaultFont 0 (by rw [length_defaultFont]; omega)).symm

end Sys2Proof.Machine

namespace Sys2Proof.Proofs

open Sys2Proof.Machine

/-- Settles O20: memory reads back the bytes at construction, which are the font's, the image's and the fill's. -/
theorem constructGivesResetState : Obligations.ConstructGivesResetState := by
  intro p image
  refine ⟨fun hlong => if_pos hlong, fun hfits => ?_⟩
  refine ⟨_, if_neg (Nat.not_lt.mpr hfits), rfl, rfl, rfl, rfl, rfl, rfl, rfl, rfl, rfl, rfl, rfl, fun a ha => ?font,
    fun a ha => ?image, fun a hfont hmem ha => ?fill⟩
  case font =>
    have hmem : a < Config.memSize := ha.trans (by decide)
    rw [Memory.read_tabulate _ _ hmem, p.initialByte_font image ha]
  case image =>
    have hmem : 0x200 + a < Config.memSize := show 0x200 + a < 0x1000 by omega
    rw [Memory.read_tabulate _ _ hmem, p.initialByte_image ha]
  case fill => rw [Memory.read_tabulate _ _ hmem, p.initialByte_fill hfont ha]

/-- Settles O21: memory holds nothing but the background, and every other field is the default's by definition. -/
theorem resetIsDefaultConstruction : Obligations.ResetIsDefaultConstruction := by
  have hmem : Memory.tabulate (Params.default.initialByte []) = [] := Memory.tabulate_background Params.initialByte_default
  simp only [Obligations.ResetIsDefaultConstruction, construct, hmem]
  rfl

end Sys2Proof.Proofs
end

section
/-! The two jumps whose target depends on the state (spec/40_control_transfer.md R111, R114), and RND
(spec/42_alu.md R163). -/

namespace Sys2Proof.Machine

/-- `0nnn` is a jump or a no-op, as the construction parameter says (R111). -/
theorem exec_sys (nnn : Addr12) (s : State) :
    exec (.sys nnn) s = .next (s.goto (if s.sysJump then zext16 nnn else s.PC + 2)) := by
  cases h : s.sysJump <;> simp [exec, execSys, h, State.advance]

/-- `Bnnn` jumps in every state (R114). -/
theorem exec_jpV0 (nnn : Addr12) (s : State) :
    exec (.jpV0 nnn) s = .next (s.goto ((s.reg RegIx.V0).zeroExtend 16 + zext16 nnn)) := rfl

/-- A byte and an address add up to less than 65536, so the 16-bit sum is exact. -/
theorem toNat_zeroExtend_add_zext16 (v : Byte) (nnn : Addr12) :
    (v.zeroExtend 16 + zext16 nnn).toNat = v.toNat + nnn.toNat := by
  have hv := v.isLt
  have hnnn := nnn.isLt
  have hext : (v.zeroExtend 16).toNat = v.toNat := BitVec.toNat_setWidth_of_le (by decide)
  rw [BitVec.toNat_add, hext, toNat_zext16]
  omega

/-- The registers after a write of one of them without a flag (R151 to R156, R163). -/
theorem State.writeReg_reg {s t : State} {x : RegIx} {v : Byte} (h : s.writeReg x v = .next t) (r : RegIx) :
    t.reg r = if r = x then v else s.reg r := by
  cases h
  simp only [State.reg_advance, State.reg_setReg, eq_comm (a := x)]

/-- `Cxkk` draws a byte and writes it, masked, with nothing that can fault (R163). -/
theorem exec_rnd (x : RegIx) (kk : Byte) (s : State) :
    exec (.rnd x kk) s =
      .next (({ s with draws := s.draws + 1 } : State).setReg x (Config.randomByte s.draws &&& kk)).advance := rfl

end Sys2Proof.Machine

namespace Sys2Proof.Proofs

open Sys2Proof.Machine

/-- Settles O33. -/
theorem sysAndIndexedJump : Obligations.SysAndIndexedJump := by
  intro nnn s
  refine ⟨⟨_, exec_sys nnn s, fun hjump => ?jump, fun hnop => ?nop, rfl⟩,
    ⟨_, exec_jpV0 nnn s, toNat_zeroExtend_add_zext16 _ nnn, rfl⟩⟩
  case jump => rw [State.goto_PC, if_pos hjump, toNat_zext16]
  case nop => rw [State.goto_PC, if_neg (Bool.eq_false_iff.mp hnop)]

/-- Settles O41: the masked byte is written to the state in which the draw is counted; a mask of 0 leaves no bit. -/
theorem randomIsMaskedFreeByte : Obligations.RandomIsMaskedFreeByte := by
  intro x kk s
  have hreg := State.writeReg_reg (s := { s with draws := s.draws + 1 }) (exec_rnd x kk s)
  refine ⟨_, exec_rnd x kk s, hreg, rfl, fun hkk => ?_, rfl, rfl⟩
  rw [hreg, if_pos rfl, hkk]
  exact BitVec.and_zero

end Sys2Proof.Proofs
end

section
/-! The index register and the memory transfers (spec/43_index_memory.md R181 to R186): what a store at I leaves in memory and
a load from I in the registers, said once; then the statements. -/

namespace Sys2Proof.Machine

/-! ### I -/

/-- `Fx1E` adds into I in every state (R181). -/
theorem exec_addI (x : RegIx) (s : State) :
    exec (.addI x) s = .next (s.setI (BitVec.ofNat 16 (s.I.toNat + (s.reg x).toNat))).advance := rfl

/-- `Fx29` with a digit (R182). -/
theorem exec_ldF_of_le {x : RegIx} {s : State} (h : (s.reg x).toNat ≤ 15) :
    exec (.ldF x) s = .next (s.setI (fontAddress (s.reg x))).advance := if_pos h

/-- `Fx29` above the digits draws the address (R182, R255). -/
theorem exec_ldF_of_gt {x : RegIx} {s : State} (h : 15 < (s.reg x).toNat) :
    exec (.ldF x) s =
      .next (({ s with draws := s.draws + 1 } : State).setI (Config.fontAddressAbove15 s.draws)).advance :=
  if_neg (Nat.not_le.mpr h)

theorem toNat_fontAddress (d : Byte) : (fontAddress d).toNat = 5 * d.toNat := by
  have hd := d.isLt
  rw [fontAddress, BitVec.toNat_ofNat]
  omega

/-! ### Stores at I -/

theorem Memory.read_writeBytes_add (m : Memory) (a : Nat) {vs : List Byte} {k : Nat} (h : k < vs.length) :
    (m.writeBytes a vs).read (a + k) = vs[k] := by
  rw [Memory.read_writeBytes, dif_pos (by omega)]
  simp only [Nat.add_sub_cancel_left]

theorem Memory.read_writeBytes_outside (m : Memory) (a : Nat) {vs : List Byte} {b : Nat}
    (h : b < a ∨ a + vs.length ≤ b) :
    (m.writeBytes a vs).read b = m.read b := by
  rw [Memory.read_writeBytes, dif_neg (by omega)]

/-- A store whose addresses all exist writes its bytes from I on, no other byte, and beside memory only PC (R183, R184). -/
theorem exists_storeAtI_next (s : State) {vs : List Byte} (i : Instr) (h : s.I.toNat + vs.length ≤ 0x1000) :
    ∃ t, s.storeAtI vs i = .next t ∧ (∀ k (hk : k < vs.length), t.MEM.read (s.I.toNat + k) = vs[k]) ∧
      (∀ a, a < s.I.toNat ∨ s.I.toNat + vs.length ≤ a → t.MEM.read a = s.MEM.read a) ∧ t.PC = s.PC + 2 ∧
      t = { s with MEM := t.MEM, PC := t.PC } :=
  ⟨_, s.storeAtI_ok vs i h, fun _ hk => Memory.read_writeBytes_add _ _ hk,
    fun _ ha => Memory.read_writeBytes_outside _ _ ha, rfl, rfl⟩

@[simp] theorem length_bcdDigits (v : Byte) : (bcdDigits v).length = 3 := rfl

/-- The three digits of a byte are below 10, so their bytes hold them exactly (R183). -/
theorem toNat_bcdDigits (v : Byte) : (bcdDigits v)[0].toNat = v.toNat / 100 ∧
    (bcdDigits v)[1].toNat = v.toNat / 10 % 10 ∧ (bcdDigits v)[2].toNat = v.toNat % 10 := by
  have hv := v.isLt
  simp only [bcdDigits, List.getElem_cons_zero, List.getElem_cons_succ, BitVec.toNat_ofNat]
  omega

/-! ### Loads from I -/

/-- `Fx65` whose bytes all exist (R185). -/
theorem exec_ldMemLoad_of_le {x : RegIx} {s : State} (h : s.I.toNat + x.val ≤ 0xFFF) :
    exec (.ldMemLoad x) s = .next (s.setRegsFrom 0 (s.MEM.readBytes s.I.toNat (x.val + 1))).advance := by
  have hrange : checkRange s.I.toNat (x.val + 1) = none := checkRange_of_le (by omega)
  simp only [exec, execLdMemLoad, hrange]

/-- `Fx65` with a byte that does not exist (R185, R233). -/
theorem exec_ldMemLoad_fault {x : RegIx} {s : State} (h : 0xFFF < s.I.toNat + x.val) :
    exec (.ldMemLoad x) s = s.raise (.boundsFault (max s.I.toNat 0x1000)) (.ldMemLoad x) := by
  have hrange : checkRange s.I.toNat (x.val + 1) = some (max s.I.toNat 0x1000) := by
    rw [checkRange_eq, if_pos (by omega)]
  simp only [exec, execLdMemLoad, hrange]

/-- The registers after a load of `V0`..`Vx` (R185). -/
theorem State.reg_setRegsFrom_readBytes (s : State) (a : Nat) (x r : RegIx) :
    (s.setRegsFrom 0 (s.MEM.readBytes a (x.val + 1))).reg r = if r ≤ x then s.MEM.read (a + r.val) else s.reg r := by
  rw [State.reg_setRegsFrom]
  by_cases hr : r ≤ x
  · have hlt : r.val < x.val + 1 := Nat.lt_succ_of_le hr
    rw [if_pos hr, dif_pos ⟨Nat.zero_le _, by simpa using hlt⟩, Memory.getElem_readBytes, Nat.sub_zero]
  · have hge : ¬r.val < x.val + 1 := fun h => hr (Nat.le_of_lt_succ h)
    rw [if_neg hr, dif_neg (by simpa using hge)]

end Sys2Proof.Machine

namespace Sys2Proof.Proofs

open Sys2Proof.Machine Sys2Proof.Safety

/-- Settles O43: a digit's font address needs no reduction, and above the digits the address is the drawn one. -/
theorem addIndexAndFontAddress : Obligations.AddIndexAndFontAddress := by
  intro x s
  refine ⟨⟨_, exec_addI x s, BitVec.toNat_ofNat .., rfl, rfl⟩, ?_⟩
  by_cases hdigit : (s.reg x).toNat ≤ 15
  · exact ⟨_, exec_ldF_of_le hdigit, rfl, fun _ => ⟨toNat_fontAddress _, rfl⟩, fun hgt => absurd hdigit (by omega)⟩
  · exact ⟨_, exec_ldF_of_gt (by omega), rfl, fun hle => absurd hle hdigit, fun _ => ⟨rfl, rfl⟩⟩

/-- Settles O44: a store of three bytes at I, and the bytes are the digits. -/
theorem storeDecimalDigits : Obligations.StoreDecimalDigits := by
  intro x s
  have hlength := length_bcdDigits (s.reg x)
  refine ⟨fun hle => ?stores, fun hfault => ?faults⟩
  case stores =>
    obtain ⟨t, hexec, hbytes, hothers, hpc, hframe⟩ :=
      exists_storeAtI_next s (vs := bcdDigits (s.reg x)) (.ldB x) (by omega)
    obtain ⟨hhundreds, htens, hunits⟩ := toNat_bcdDigits (s.reg x)
    refine ⟨t, hexec, ?_, ?_, ?_, fun a ha => hothers a (by omega), hpc, hframe⟩
    · exact (congrArg BitVec.toNat (hbytes 0 (by omega))).trans hhundreds
    · exact (congrArg BitVec.toNat (hbytes 1 (by omega))).trans htens
    · exact (congrArg BitVec.toNat (hbytes 2 (by omega))).trans hunits
  case faults => exact s.storeAtI_fault _ _ (by omega) (by omega)

/-- Settles O45: a store of x + 1 bytes at I, and the bytes are the registers. -/
theorem storeRegisters : Obligations.StoreRegisters := by
  intro x s
  have hlength := s.length_regsUpTo x
  refine ⟨fun hle => ?stores, fun hfault => ?faults⟩
  case stores =>
    obtain ⟨t, hexec, hbytes, hothers, hpc, hframe⟩ :=
      exists_storeAtI_next s (vs := s.regsUpTo x) (.ldMemStore x) (by omega)
    refine ⟨t, hexec, fun r hr => ?_, fun a ha => hothers a (by omega), hpc, hframe⟩
    have hlt : r.val < (s.regsUpTo x).length := by rw [hlength]; exact Nat.lt_succ_of_le hr
    rw [hbytes r.val hlt, State.getElem_regsUpTo]
  case faults => exact s.storeAtI_fault _ _ (by omega) (by omega)

/-- Settles O46. -/
theorem loadRegisters : Obligations.LoadRegisters := by
  intro x s
  refine ⟨fun hle => ⟨_, exec_ldMemLoad_of_le hle, ?registers, ?pc, ?frame⟩, fun hfault => ?faults⟩
  case registers => exact s.reg_setRegsFrom_readBytes s.I.toNat x
  case pc => rw [State.setRegsFrom_frame]; rfl
  case frame => rw [State.setRegsFrom_frame]; rfl
  case faults => exact (exec_ldMemLoad_fault hfault).trans (State.raise_eq s _ _)

/-- Settles O47: the store puts back, at each address the load read, the byte the load found there. -/
theorem loadThenStoreRoundTrip : Obligations.LoadThenStoreRoundTrip := by
  intro x s hle
  obtain ⟨t, hload, hreg, -, hloadFrame⟩ := (loadRegisters x s).1 hle
  have hI : t.I = s.I := by rw [hloadFrame]
  have hMEM : t.MEM = s.MEM := by rw [hloadFrame]
  obtain ⟨u, hstore, hbytes, hothers, -, hstoreFrame⟩ := (storeRegisters x t).1 (by rwa [hI])
  rw [hI] at hbytes hothers
  have hloaded (r : RegIx) (hr : r ≤ x) : t.reg r = s.MEM.read (s.I.toNat + r.val) := by rw [hreg, if_pos hr]
  refine ⟨t, u, hload, hstore, ?index, fun r hr => ?registers, fun a => ?memory⟩
  case index => rw [hstoreFrame, hI]
  case registers => rw [hstoreFrame]; exact hloaded r hr
  case memory =>
    by_cases hout : a < s.I.toNat ∨ s.I.toNat + x.val < a
    · rw [hothers a hout, hMEM]
    · obtain ⟨k, rfl⟩ := Nat.exists_eq_add_of_le (show s.I.toNat ≤ a by omega)
      have hk : k ≤ x.val := by omega
      have hr : (⟨k, by have := x.isLt; omega⟩ : RegIx) ≤ x := hk
      exact (hbytes _ hr).trans (hloaded _ hr)

end Sys2Proof.Proofs
end

section
/-! The sound timer's instruction and its tone request (spec/44_timers.md R202). -/

namespace Sys2Proof.Machine

/-- `Fx18` sets ST and lets the old value decide the tone request, with nothing that can fault (R202). -/
theorem exec_ldSTVx (x : RegIx) (s : State) :
    exec (.ldSTVx x) s =
      .next ({ s with ST := s.reg x, adapter := toneRequest s.ST (s.reg x) s.adapter } : State).advance := rfl

/-- A tone request reaches the adapter's record alone. -/
theorem toneRequest_frame (old v : Byte) (a : Adapter) :
    toneRequest old v a = { a with sent := (toneRequest old v a).sent } := by
  unfold toneRequest
  split <;> rfl

theorem toneRequest_sent (old v : Byte) (a : Adapter) :
    (toneRequest old v a).sent = if old = 0 ∧ v ≠ 0 then a.sent ++ [.playTone v] else a.sent := by
  unfold toneRequest
  split <;> rfl

end Sys2Proof.Machine

namespace Sys2Proof.Proofs

open Sys2Proof.Machine

/-- Settles O49. -/
theorem soundTimerSetAndTone : Obligations.SoundTimerSetAndTone := by
  intro x s
  refine ⟨_, exec_ldSTVx x s, rfl, rfl, fun htone => ?tone, fun hsilent => ?silent, ?frame⟩
  case tone => exact (toneRequest_sent ..).trans (if_pos htone)
  case silent => exact (toneRequest_sent ..).trans (if_neg hsilent)
  case frame => rw [toneRequest_frame]; rfl

end Sys2Proof.Proofs
end

section
/-! Which pixels one row of a sprite flips (spec/60_exceptions.md R253). -/

namespace Sys2Proof.Machine

/-- A sprite byte covers the pixels of its row that one of its eight set bits wraps to (R213). -/
theorem coversPixel_iff (b : Byte) (x y c r : Nat) :
    coversPixel b x y 8 c r = true ↔ r % 32 = y % 32 ∧ ∃ j, j < 8 ∧ c % 64 = (x + j) % 64 ∧ spriteBit b j = true := by
  simp only [coversPixel, Bool.and_eq_true, decide_eq_true_eq, and_assoc]
  refine and_congr_right fun _ => ⟨fun ⟨hlt, hbit⟩ => ?_, fun ⟨j, hj, hcol, hbit⟩ => ?_⟩
  · exact ⟨colOffset x c, hlt, (colOffset_eq_iff x c (colOffset_lt x c)).mp rfl, hbit⟩
  · rw [(colOffset_eq_iff x c (by omega)).mpr hcol]
    exact ⟨hj, hbit⟩

end Sys2Proof.Machine

namespace Sys2Proof.Proofs

open Sys2Proof.Machine

/-- Settles O51: a draw inverts the covered pixels, and on the screen a pixel's coordinates are its own remainders. -/
theorem drawRowFlipsSpritePixels : Obligations.DrawRowFlipsSpritePixels := by
  intro fb b x y c r hc hr
  have hcover := coversPixel_iff b x y c r
  rw [Nat.mod_eq_of_lt hc, Nat.mod_eq_of_lt hr] at hcover
  refine Iff.trans ?_ hcover
  rw [fb.pixel_drawRow, ← Bool.xor_true, Bool.xor_right_inj]

end Sys2Proof.Proofs
end
